-- ==== Sys2Proof/Word.lean ====
section
/-! DEFINITION. The word types of the STUN message codec block: every register, field and byte is an
unsigned bit vector, bit 0 least significant (spec/00_scope.md R10, R11, R12). -/

namespace Sys2Proof

/-- One 8-bit byte of a buffer, a datagram or a wire record (R11); also the CMD word (R70). -/
abbrev Byte := BitVec 8

/-- A 96-bit transaction id (spec/10_state.md R31). -/
abbrev Tid := BitVec 96

end Sys2Proof
end

