-- ==== Sys2Proof/Config.lean ====
section
/-! DEFINITION. What is fixed for one block: the open parameter RX_BUF_SIZE, the constants of
spec/00_scope.md R9, the three byte spaces of spec/20_memory.md R50, and the free values (the
parameter's value at reset, log 1, and the contents of the buffers after reset, log 2). -/

namespace Sys2Proof

/-- The three byte-addressed spaces (spec/20_memory.md R50). -/
inductive Space where
  | ibuf   -- the received datagram
  | val    -- the attribute value
  | obuf   -- the encoded message
  deriving DecidableEq, Repr

/-- The parameters of one block. RX_BUF_SIZE is open: the model takes it as an argument (R7, log 1). -/
structure Config where
  rxBufSize : Nat
  deriving DecidableEq, Repr

/-- The range the spec constrains RX_BUF_SIZE to: 32 <= RX_BUF_SIZE <= 65535 (R7). -/
abbrev Config.ok (c : Config) : Prop := 32 ≤ c.rxBufSize ∧ c.rxBufSize ≤ 65535

/-- FREE VALUE, no body: chooses the block's RX_BUF_SIZE (R7, spec/93 A1). DESIGN CHOICE, log 1. -/
opaque Config.sizeChoice : Nat

/-- The parameters of the block that `State.reset` describes: some RX_BUF_SIZE of R7's range, and nothing
more is known about which. DESIGN CHOICE, log 1. -/
def Config.chosen : Config := { rxBufSize := 32 + Config.sizeChoice % 65504 }

/-- FREE VALUE, no body: the unspecified content of a buffer byte after a reset (R41, R230, spec/93 A9):
`freeByte e sp i` is byte `i` of space `sp` after the `e`-th reset, until something is written there.
DESIGN CHOICE, log 2. -/
opaque Config.freeByte : Nat → Space → Nat → Byte

/-- MAGIC_COOKIE (R9). -/
def magicCookie : BitVec 32 := 0x2112A442

/-- MAGIC_HI16, the most significant 16 bits of the magic cookie (R9). -/
def magicHi16 : BitVec 16 := 0x2112

/-- ATTR_XOR_MAPPED_ADDRESS (R9). -/
def attrXorMappedAddress : BitVec 16 := 0x0020

/-- FAMILY_IPV4 (R9). -/
def familyIpv4 : Byte := 0x01

/-- HDR_LEN (R9). -/
abbrev hdrLen : Nat := 20

/-- ATTR_HDR_LEN (R9). -/
abbrev attrHdrLen : Nat := 4

/-- XMA_VALUE_LEN (R9). -/
abbrev xmaValueLen : Nat := 8

/-- RESP_MSG_LEN (R9). -/
def respMsgLen : BitVec 16 := 12

end Sys2Proof
end

