-- ==== Sys2Proof/Machine/HostSyntax.lean ====
section
/-! DEFINITION. The host's program notation (spec/30_encoding.md R83, R84): what the second agent may do to the block
(spec/45_host_interface.md R170). A program is plain data, a list of statements. -/

namespace Sys2Proof.Machine

/-- A sender's observed IPv4 address a.b.c.d, octet by octet as the notation writes it, and UDP port (R83, R84; spec/10_state.md R38,
R39). The word PEER_IP takes of it is `Peer.ip`. -/
structure Peer where
  a    : Byte
  b    : Byte
  c    : Byte
  d    : Byte
  port : BitVec 16
  deriving DecidableEq, Repr

/-- One received datagram and who sent it (R174). -/
structure Arrival where
  bytes  : List Byte
  sender : Peer
  deriving DecidableEq, Repr

/-- One datagram handed to the socket (R175). With no sender known it has no destination (log 17). -/
structure Packet where
  dest  : Option Peer
  bytes : List Byte
  deriving DecidableEq, Repr

/-- A label of a host program (R83). One that stands twice: log 16. -/
abbrev Label := Nat

/-- The fields of STATUS a host may name (spec/10_state.md R25). -/
inductive StatusField where
  | done | err | ecode | lastOp
  deriving DecidableEq, Repr

/-- The fields of CMD a host may name (spec/10_state.md R24, spec/30_encoding.md R70). -/
inductive CmdField where
  | op | rsv
  deriving DecidableEq, Repr

/-- What a host branch reads: a whole register by its index, or a field of STATUS or CMD (`REG.FIELD`, R13, R83). -/
inductive HostOperand where
  | reg (idx : Byte)
  | status (f : StatusField)
  | cmd (f : CmdField)
  deriving DecidableEq, Repr

/-- One statement of a host program (R83, R84). -/
inductive Stmt where
  | issue (w : Byte)                                   -- a command mnemonic: write its CMD byte (R176)
  | wr (idx : Byte) (v : Nat)                          -- WR REG, v (R171)
  | rd (idx : Byte)                                    -- RD REG (R172)
  | wrb (sp : Space) (i : Nat) (b : Byte)              -- WRB BUF[i], b (R173)
  | rdb (sp : Space) (i : Nat)                         -- RDB BUF[i] (R173)
  | rx (bytes : List Byte) (sender : Option Peer)      -- RX b0 .. b(n-1) [from a.b.c.d:p] (R174)
  | send                                               -- SEND (R175)
  | beq (o : HostOperand) (v : Nat) (l : Label)        -- BEQ o, v, l
  | bne (o : HostOperand) (v : Nat) (l : Label)        -- BNE o, v, l
  | jmp (l : Label)                                    -- JMP l
  | label (l : Label)                                  -- l:
  | stop                                               -- END
  | wrv (bytes : List Byte)                            -- WRV b0 .. b(k-1) (R84)
  | cpyxma                                             -- CPYXMA (R84)
  | peer (p : Peer)                                    -- PEER a.b.c.d:p (R84)
  | reset                                              -- no host statement: the reset event of R230, log 8
  deriving DecidableEq, Repr

/-- The host beside the block (log 4): its program, the statements still to run, the datagrams waiting in its socket, the address
of the last one received, what its last read returned, and what it has sent, oldest first. -/
structure HostSide where
  prog     : List Stmt
  rest     : List Stmt
  inbox    : List Arrival
  sender   : Option Peer
  lastRead : Option Nat
  sent     : List Packet
  deriving DecidableEq, Repr

/-- A host with no program, nothing received, nothing read and nothing sent. -/
def HostSide.empty : HostSide :=
  { prog := [], rest := [], inbox := [], sender := none, lastRead := none, sent := [] }

end Sys2Proof.Machine
end

