-- ==== Sys2Proof/Machine/State.lean ====
section
/-! DEFINITION. The state of the machine: the block's seventeen registers and three buffers (spec/10_state.md R20 to R42), and beside
them the parameter, the reset count and the host (log 1, 3, 4). -/

namespace Sys2Proof.Machine

/-- A buffer's contents: (index, byte) pairs with strictly rising indices, one for each byte written since the last reset.
An index not listed has no value of its own: reading it gives the free value of `Config.freeByte` (log 2). -/
abbrev Memory := List Host.Cell

/-- Canonical form from index `lo` on: indices strictly rising and none below `lo`. -/
def Memory.risingFrom : Nat → Memory → Bool
  | _, [] => true
  | lo, (a, _) :: m => decide (lo ≤ a) && Memory.risingFrom (a + 1) m

/-- The canonical form of a buffer: strictly rising indices. An unlisted index reads as no value, so no entry can repeat it. -/
def Memory.wf (m : Memory) : Bool := Memory.risingFrom 0 m

/-- The machine. The first group is the block's architectural state, exactly R20's list; the second is the model's own. -/
structure State where
  /-- CMD (R24) -/
  cmd         : BitVec 8
  /-- STATUS (R25) -/
  status      : BitVec 16
  /-- TYPE (R26) -/
  type        : BitVec 16
  /-- CLASS (R27) -/
  cls         : BitVec 2
  /-- METHOD (R28) -/
  method      : BitVec 12
  /-- MSG_LEN (R29) -/
  msgLen      : BitVec 16
  /-- COOKIE (R30) -/
  cookie      : BitVec 32
  /-- TID (R31) -/
  tid         : BitVec 96
  /-- ATTR_PRESENT (R32) -/
  attrPresent : BitVec 1
  /-- ATTR_TYPE (R33) -/
  attrType    : BitVec 16
  /-- ATTR_LEN (R34) -/
  attrLen     : BitVec 16
  /-- VAL_CNT (R35) -/
  valCnt      : BitVec 16
  /-- IBUF_LEN (R36) -/
  ibufLen     : BitVec 16
  /-- OBUF_LEN (R37) -/
  obufLen     : BitVec 16
  /-- PEER_IP (R38) -/
  peerIp      : BitVec 32
  /-- PEER_PORT (R39) -/
  peerPort    : BitVec 16
  /-- XMA_OUT (R40) -/
  xmaOut      : BitVec 64
  /-- IBUF (R41, R50) -/
  ibuf        : Memory
  /-- VAL (R41, R50) -/
  val         : Memory
  /-- OBUF (R41, R50) -/
  obuf        : Memory
  /-- RX_BUF_SIZE (R7): fixed, no step changes it (log 1) -/
  cfg         : Config
  /-- how many resets there have been: which free contents the buffers hold (log 3) -/
  epoch       : Nat
  /-- the host (log 4) -/
  host        : HostSide
  deriving DecidableEq, Repr

/-- The reasons the machine could stop with a fault: none. The block has "no halt of its own, no stuck state and no fault state"
(spec/45_host_interface.md R181), and a command error is reported in STATUS (spec/60_exceptions.md R200). -/
inductive Fault where
  deriving DecidableEq, Repr

/-- The actions the model gives no meaning: the host's violations of its duties (spec/45_host_interface.md R180). -/
inductive Refusal where
  /-- Raised by an arm of exec whose instruction has no meaning yet; no arm raises it. Safe: the model stops. -/
  | notModelled (mnemonic : String)
  /-- Raised by a host read, write or branch of a register index 0x11 to 0xFF, as R171 and R172 ask. Safe: the model stops. -/
  | reservedRegister (idx : Byte)
  /-- Raised by a host byte access at or beyond the size of the buffer, as R173 asks. Safe: the model stops. -/
  | bufferIndexOutOfRange (sp : Space) (i : Nat)
  /-- Raised by a host write of a value wider than the register: R171 asks for exactly its width (log 7). Safe: the model stops. -/
  | valueTooWide (idx : Byte) (v : Nat)
  /-- Raised by a host branch or jump to a label its program does not have (log 7). Safe: the model stops. -/
  | unknownLabel (l : Label)
  deriving DecidableEq, Repr

/-- The machine right after reset: the values of R42 and R230, and no buffer byte written. The spec gives every register's value; the
parameter, the reset count and the host are the model's own (log 1, 3, 4). -/
def State.reset : State where
  cmd := 0x00
  status := 0x0000
  type := 0x0000
  cls := 0b00
  method := 0x000
  msgLen := 0x0000
  cookie := magicCookie
  tid := 0
  attrPresent := 0
  attrType := 0x0000
  attrLen := 0x0000
  valCnt := 0x0000
  ibufLen := 0x0000
  obufLen := 0x0000
  peerIp := 0x00000000
  peerPort := 0x0000
  xmaOut := 0
  ibuf := []
  val := []
  obuf := []
  cfg := Config.chosen
  epoch := 0
  host := HostSide.empty

end Sys2Proof.Machine
end

