-- ==== Sys2Proof/Machine/Flags.lean ====
section
/-! DEFINITION. STATUS, the block's only flags (spec/10_state.md R25), and the error codes it reports
(spec/60_exceptions.md R201). -/

namespace Sys2Proof.Machine

/-- The command errors (R201). `fmtClassUnknown` has a code so that the source's error has a name; no command raises it (R215). -/
inductive CmdError where
  | fmtHdrTrunc
  | fmtTypeReserved
  | fmtClassUnknown
  | fmtMethodUnknown
  | fmtCookie
  | fmtAttrTrunc
  | encMethodUnknown
  | encValueOverflow
  | cmdIllegal
  deriving DecidableEq, Repr

/-- ECODE (R201); 0 is success and 10 to 15 are never reported. -/
def CmdError.code : CmdError → BitVec 4
  | .fmtHdrTrunc => 1
  | .fmtTypeReserved => 2
  | .fmtClassUnknown => 3
  | .fmtMethodUnknown => 4
  | .fmtCookie => 5
  | .fmtAttrTrunc => 6
  | .encMethodUnknown => 7
  | .encValueOverflow => 8
  | .cmdIllegal => 9

/-- A STATUS word with DONE = 1: bits 15:11 and 3:2 are reserved and read 0 (R25). -/
def statusWord (err : BitVec 1) (ecode : BitVec 4) (lastOp : BitVec 3) : BitVec 16 :=
  0b00000#5 ++ lastOp ++ ecode ++ 0b00#2 ++ err ++ 1#1

/-- STATUS after success: {DONE=1, ERR=0, ECODE=0, LAST_OP=o} (R205). -/
def statusOk (o : BitVec 3) : BitVec 16 := statusWord 0 0 o

/-- STATUS after an error: {DONE=1, ERR=1, ECODE=code, LAST_OP=o} (R204). -/
def statusError (e : CmdError) (o : BitVec 3) : BitVec 16 := statusWord 1 e.code o

/-- STATUS.DONE, bit 0 (R25). -/
def statusDone (v : BitVec 16) : BitVec 1 := v.extractLsb' 0 1

/-- STATUS.ERR, bit 1 (R25). -/
def statusErr (v : BitVec 16) : BitVec 1 := v.extractLsb' 1 1

/-- STATUS.ECODE, bits 7:4 (R25). -/
def statusEcode (v : BitVec 16) : BitVec 4 := v.extractLsb' 4 4

/-- STATUS.LAST_OP, bits 10:8 (R25). -/
def statusLastOp (v : BitVec 16) : BitVec 3 := v.extractLsb' 8 3

end Sys2Proof.Machine
end

