-- ==== Sys2Proof/Machine/Registers.lean ====
section
/-! DEFINITION. The register map (spec/10_state.md R42): each register's index, width and host access, and the one way to read and
write a register. No register aliases another and none is hardwired (R21). -/

namespace Sys2Proof.Machine

/-- The seventeen registers (R20, R24 to R40). -/
inductive Reg where
  | cmd | status | type | cls | method | msgLen | cookie | tid | attrPresent | attrType | attrLen | valCnt
  | ibufLen | obufLen | peerIp | peerPort | xmaOut
  deriving DecidableEq, Repr

/-- Width in bits (R42). Reducible, so that a register's value is a word of its own width to every lemma. -/
@[reducible] def Reg.width : Reg → Nat
  | .cmd => 8
  | .status => 16
  | .type => 16
  | .cls => 2
  | .method => 12
  | .msgLen => 16
  | .cookie => 32
  | .tid => 96
  | .attrPresent => 1
  | .attrType => 16
  | .attrLen => 16
  | .valCnt => 16
  | .ibufLen => 16
  | .obufLen => 16
  | .peerIp => 32
  | .peerPort => 16
  | .xmaOut => 64

/-- Index (R42). -/
def Reg.index : Reg → Byte
  | .cmd => 0x00
  | .status => 0x01
  | .type => 0x02
  | .cls => 0x03
  | .method => 0x04
  | .msgLen => 0x05
  | .cookie => 0x06
  | .tid => 0x07
  | .attrPresent => 0x08
  | .attrType => 0x09
  | .attrLen => 0x0A
  | .valCnt => 0x0B
  | .ibufLen => 0x0C
  | .obufLen => 0x0D
  | .peerIp => 0x0E
  | .peerPort => 0x0F
  | .xmaOut => 0x10

/-- The register at an index; 0x11 to 0xFF are reserved (R41). -/
def Reg.ofIndex (idx : Byte) : Option Reg :=
  match idx.toNat with
  | 0x00 => some .cmd
  | 0x01 => some .status
  | 0x02 => some .type
  | 0x03 => some .cls
  | 0x04 => some .method
  | 0x05 => some .msgLen
  | 0x06 => some .cookie
  | 0x07 => some .tid
  | 0x08 => some .attrPresent
  | 0x09 => some .attrType
  | 0x0A => some .attrLen
  | 0x0B => some .valCnt
  | 0x0C => some .ibufLen
  | 0x0D => some .obufLen
  | 0x0E => some .peerIp
  | 0x0F => some .peerPort
  | 0x10 => some .xmaOut
  | _ => none

/-- How the host may write a register (R42). -/
inductive Access where
  | readWrite
  | readOnly      -- a host write changes nothing
  | clamped       -- IBUF_LEN: a host write stores min(v, RX_BUF_SIZE) (R36)
  | issues        -- CMD: a host write issues a command (R24)
  deriving DecidableEq, Repr

/-- The host column of R42. -/
def Reg.access : Reg → Access
  | .cmd => .issues
  | .status | .obufLen | .xmaOut => .readOnly
  | .ibufLen => .clamped
  | .type | .cls | .method | .msgLen | .cookie | .tid | .attrPresent | .attrType | .attrLen | .valCnt
  | .peerIp | .peerPort => .readWrite

/-- A register's current value (`REG` of R13). -/
def State.readReg (s : State) : (r : Reg) → BitVec r.width
  | .cmd => s.cmd
  | .status => s.status
  | .type => s.type
  | .cls => s.cls
  | .method => s.method
  | .msgLen => s.msgLen
  | .cookie => s.cookie
  | .tid => s.tid
  | .attrPresent => s.attrPresent
  | .attrType => s.attrType
  | .attrLen => s.attrLen
  | .valCnt => s.valCnt
  | .ibufLen => s.ibufLen
  | .obufLen => s.obufLen
  | .peerIp => s.peerIp
  | .peerPort => s.peerPort
  | .xmaOut => s.xmaOut

/-- The state with one register set (`REG <- v` of R13), nothing else changed. -/
def State.writeReg (s : State) : (r : Reg) → BitVec r.width → State
  | .cmd, v => { s with cmd := v }
  | .status, v => { s with status := v }
  | .type, v => { s with type := v }
  | .cls, v => { s with cls := v }
  | .method, v => { s with method := v }
  | .msgLen, v => { s with msgLen := v }
  | .cookie, v => { s with cookie := v }
  | .tid, v => { s with tid := v }
  | .attrPresent, v => { s with attrPresent := v }
  | .attrType, v => { s with attrType := v }
  | .attrLen, v => { s with attrLen := v }
  | .valCnt, v => { s with valCnt := v }
  | .ibufLen, v => { s with ibufLen := v }
  | .obufLen, v => { s with obufLen := v }
  | .peerIp, v => { s with peerIp := v }
  | .peerPort, v => { s with peerPort := v }
  | .xmaOut, v => { s with xmaOut := v }

end Sys2Proof.Machine
end

