-- ==== Sys2Proof/Machine/Ops.lean ====
section
/-! DEFINITION. The named operations the commands and the host's actions share: the buffers and their bytes, byte order, how a
command ends (with success, or with an error, which is all the block has for an exception), and reset. -/

namespace Sys2Proof.Machine

/-! ### Buffers -/

/-- The byte listed at an index, if one is. -/
def Memory.read? : Memory → Nat → Option Byte
  | [], _ => none
  | (k, b) :: m, a => if k = a then some b else Memory.read? m a

/-- The buffer with one byte written, still in canonical form. -/
def Memory.write : Memory → Nat → Byte → Memory
  | [], a, b => [(a, b)]
  | (k, v) :: m, a, b =>
    if a < k then (a, b) :: (k, v) :: m
    else if a = k then (a, b) :: m
    else (k, v) :: Memory.write m a b

/-- The buffer with a sequence of bytes written from an index on. -/
def Memory.writeBytes : Memory → Nat → List Byte → Memory
  | m, _, [] => m
  | m, a, b :: bs => Memory.writeBytes (Memory.write m a b) (a + 1) bs

/-- Every listed index is below a size. -/
def Memory.within (size : Nat) (m : Memory) : Bool := m.all (fun c => decide (c.1 < size))

/-- VAL_MAX = RX_BUF_SIZE - 24 (spec/00_scope.md R8). -/
def State.valMax (s : State) : Nat := s.cfg.rxBufSize - (hdrLen + attrHdrLen)

/-- The size of each space in bytes (spec/20_memory.md R50). -/
def State.sizeOf (s : State) : Space → Nat
  | .ibuf => s.cfg.rxBufSize
  | .val => s.valMax
  | .obuf => s.cfg.rxBufSize

/-- The contents of a space. -/
def State.buf (s : State) : Space → Memory
  | .ibuf => s.ibuf
  | .val => s.val
  | .obuf => s.obuf

/-- The state with the contents of one space replaced, nothing else changed. -/
def State.setBuf (s : State) : Space → Memory → State
  | .ibuf, m => { s with ibuf := m }
  | .val, m => { s with val := m }
  | .obuf, m => { s with obuf := m }

/-- One byte of a space: what was last written there, or the unspecified content since the last reset
(R41, spec/45_host_interface.md R173, spec/93 A9, log 2). -/
def State.byte (s : State) (sp : Space) (i : Nat) : Byte :=
  (Memory.read? (s.buf sp) i).getD (Config.freeByte s.epoch sp i)

/-- `B[a..a+n)` of a byte sequence given by its bytes (R11). -/
def slice (B : Nat → Byte) (a : Nat) : Nat → List Byte
  | 0 => []
  | n + 1 => B a :: slice B (a + 1) n

/-- MemRead(S, a, n) (R13). -/
def State.memRead (s : State) (sp : Space) (a n : Nat) : List Byte := slice (s.byte sp) a n

/-- MemWrite(S, a, n, bs) with n the length of bs (R13). -/
def State.memWrite (s : State) (sp : Space) (a : Nat) (bs : List Byte) : State :=
  s.setBuf sp (Memory.writeBytes (s.buf sp) a bs)

/-! ### Byte order: big-endian, always (spec/20_memory.md R54, R55; spec/00_scope.md R12) -/

/-- be16(b0, b1). -/
def be16 (b0 b1 : Byte) : BitVec 16 := b0 ++ b1

/-- be32(b0, b1, b2, b3). -/
def be32 (b0 b1 b2 b3 : Byte) : BitVec 32 := b0 ++ b1 ++ b2 ++ b3

/-- The 16-bit field at wire offset a. -/
def be16At (B : Nat → Byte) (a : Nat) : BitVec 16 := be16 (B a) (B (a + 1))

/-- The 32-bit field at wire offset a. -/
def be32At (B : Nat → Byte) (a : Nat) : BitVec 32 := be32 (B a) (B (a + 1)) (B (a + 2)) (B (a + 3))

/-- The 96-bit field at wire offset a: B[a] in bits 95:88 (spec/10_state.md R31). -/
def be96At (B : Nat → Byte) (a : Nat) : BitVec 96 := be32At B a ++ be32At B (a + 4) ++ be32At B (a + 8)

/-- bytes16(v). -/
def bytes16 (v : BitVec 16) : List Byte := [v.extractLsb' 8 8, v.extractLsb' 0 8]

/-- bytes32(v). -/
def bytes32 (v : BitVec 32) : List Byte :=
  [v.extractLsb' 24 8, v.extractLsb' 16 8, v.extractLsb' 8 8, v.extractLsb' 0 8]

/-- bytes96(tid) (spec/41_header_codec.md R123). -/
def bytes96 (v : BitVec 96) : List Byte :=
  bytes32 (v.extractLsb' 64 32) ++ bytes32 (v.extractLsb' 32 32) ++ bytes32 (v.extractLsb' 0 32)

/-- A list of bytes as a byte sequence; only its own indices are meaningful. -/
def bytesOf (bs : List Byte) : Nat → Byte := fun k => bs.getD k 0

/-! ### How a command ends -/

/-- The outcome of one step of this machine. -/
abbrev Result := Host.Outcome State Fault Refusal

/-- A command with OP o that completes without error: its results are written, and STATUS last (spec/60_exceptions.md R205). -/
def completeOk (o : BitVec 3) (s : State) : Result := .next (s.writeReg .status (statusOk o))

/-- `raise Error(code)` in a command with OP o (spec/60_exceptions.md R204): STATUS is written, everything else keeps its value. This is
all the block has for an exception: no vector, no saved state, no mode, and so no return either (R200, R206). -/
def raiseError (e : CmdError) (o : BitVec 3) (s : State) : Result := .next (s.writeReg .status (statusError e o))

/-! ### Reset -/

/-- Reset (spec/70_reset_and_hazards.md R230): every register takes its reset value and the buffers' contents become unspecified anew; the
parameter is fixed and the host is not the block (log 3, 8). -/
def State.applyReset (s : State) : State :=
  { State.reset with cfg := s.cfg, epoch := s.epoch + 1, host := s.host }

end Sys2Proof.Machine
end

