-- ==== Sys2Proof/Machine/TypeCodec.lean ====
section
/-! DEFINITION. The message-type field codec (spec/40_type_codec.md): TypeEncodeF, TypeDecodeF, TYPE_ENC and TYPE_DEC. -/

namespace Sys2Proof.Machine

/-- The four message classes (spec/00_scope.md R14). -/
inductive MsgClass where
  | request | indication | successResponse | errorResponse
  deriving DecidableEq, Repr

/-- Class codes {C1, C0} (spec/30_encoding.md R76). Every 2-bit pattern is one of them, so FMT_CLASS_UNKNOWN never arises (R215). -/
def MsgClass.code : MsgClass → BitVec 2
  | .request => 0b00
  | .indication => 0b01
  | .successResponse => 0b10
  | .errorResponse => 0b11

/-- The known methods (spec/00_scope.md R14). -/
inductive MsgMethod where
  | binding | allocate | refresh | send | data | createPermission | channelBind
  deriving DecidableEq, Repr

/-- Method codes (spec/30_encoding.md R77). -/
def MsgMethod.code : MsgMethod → BitVec 12
  | .binding => 0x001
  | .allocate => 0x003
  | .refresh => 0x004
  | .send => 0x006
  | .data => 0x007
  | .createPermission => 0x008
  | .channelBind => 0x009

/-- KnownMethods (R14). -/
def knownMethods : List (BitVec 12) :=
  [MsgMethod.binding.code, MsgMethod.allocate.code, MsgMethod.refresh.code, MsgMethod.send.code, MsgMethod.data.code,
    MsgMethod.createPermission.code, MsgMethod.channelBind.code]

/-- KnownMethod(m) (R100). -/
def knownMethod (m : BitVec 12) : Bool := knownMethods.contains m

/-- The type field of a class and a method (R75, R101): two zero bits, M11..M7, C1, M6..M4, C0, M3..M0. -/
def typeField (c : BitVec 2) (m : BitVec 12) : BitVec 16 :=
  0b00#2 ++ m.extractLsb' 7 5 ++ c.extractLsb' 1 1 ++ m.extractLsb' 4 3 ++ c.extractLsb' 0 1 ++ m.extractLsb' 0 4

/-- The class code in a type field: {T[8], T[4]} (R75). -/
def typeClass (t : BitVec 16) : BitVec 2 := t.extractLsb' 8 1 ++ t.extractLsb' 4 1

/-- The method code in a type field: {T[13:9], T[7:5], T[3:0]} (R75). -/
def typeMethod (t : BitVec 16) : BitVec 12 := t.extractLsb' 9 5 ++ t.extractLsb' 5 3 ++ t.extractLsb' 0 4

/-- TypeEncodeF(c, m) (R101). -/
def typeEncodeF (c : BitVec 2) (m : BitVec 12) : Except CmdError (BitVec 16) :=
  if knownMethod m then .ok (typeField c m) else .error .encMethodUnknown

/-- TypeDecodeF(t) (R102): the reserved bits are checked first (spec/60_exceptions.md R203). -/
def typeDecodeF (t : BitVec 16) : Except CmdError (BitVec 2 × BitVec 12) :=
  if t.extractLsb' 14 2 ≠ 0 then .error .fmtTypeReserved
  else if knownMethod (typeMethod t) then .ok (typeClass t, typeMethod t)
  else .error .fmtMethodUnknown

/-- One row of the lookup-table form (R104): a method and its type fields, in the order of the class codes. -/
structure TypeRow where
  method : MsgMethod
  fields : List (BitVec 16)
  deriving DecidableEq, Repr

/-- The lookup-table form of the codec, as R104 prints it; the functions above must agree with it. -/
def typeTable : List TypeRow :=
  [ { method := .binding,          fields := [0x0001, 0x0011, 0x0101, 0x0111] },
    { method := .allocate,         fields := [0x0003, 0x0013, 0x0103, 0x0113] },
    { method := .refresh,          fields := [0x0004, 0x0014, 0x0104, 0x0114] },
    { method := .send,             fields := [0x0006, 0x0016, 0x0106, 0x0116] },
    { method := .data,             fields := [0x0007, 0x0017, 0x0107, 0x0117] },
    { method := .createPermission, fields := [0x0008, 0x0018, 0x0108, 0x0118] },
    { method := .channelBind,      fields := [0x0009, 0x0019, 0x0109, 0x0119] } ]

/-- The table's entry for a method and a class code (R104). -/
def typeTableEntry (c : BitVec 2) (m : BitVec 12) : Option (BitVec 16) :=
  (typeTable.find? (fun row => row.method.code == m)).bind (fun row => row.fields[c.toNat]?)

/-- TYPE_ENC (R105). -/
def execTypeEnc (s : State) : Result :=
  match typeEncodeF s.cls s.method with
  | .ok t => completeOk 0b000 (s.writeReg .type t)
  | .error e => raiseError e 0b000 s

/-- TYPE_DEC (R106). -/
def execTypeDec (s : State) : Result :=
  match typeDecodeF s.type with
  | .ok (c, m) => completeOk 0b001 ((s.writeReg .cls c).writeReg .method m)
  | .error e => raiseError e 0b001 s

end Sys2Proof.Machine
end

