-- ==== Sys2Proof/Machine/HeaderCodec.lean ====
section
/-! DEFINITION. The header decoder and encoder (spec/41_header_codec.md): HeaderDecodeF, HeaderEncodeF, HDR_DEC and HDR_ENC. -/

namespace Sys2Proof.Machine

/-- CookieOk(k), the magic-cookie validator (R120). -/
def cookieOk (k : BitVec 32) : Bool := k == magicCookie

/-- A header record {type, class, method, msg_len, cookie, tid} (R121). -/
structure Header where
  type   : BitVec 16
  cls    : BitVec 2
  method : BitVec 12
  msgLen : BitVec 16
  cookie : BitVec 32
  tid    : Tid
  deriving DecidableEq, Repr

/-- HeaderDecodeF(B, n) (R121). message_length is parsed and checked against nothing (R126). -/
def headerDecodeF (B : Nat → Byte) (n : Nat) : Except CmdError Header :=
  if n < hdrLen then .error .fmtHdrTrunc
  else
    match typeDecodeF (be16At B 0) with
    | .error e => .error e
    | .ok (c, m) =>
      if cookieOk (be32At B 4) then
        .ok { type := be16At B 0, cls := c, method := m, msgLen := be16At B 2, cookie := be32At B 4, tid := be96At B 8 }
      else .error .fmtCookie

/-- HeaderEncodeF(c, m, len, k, tid) (R123): the cookie and the length are emitted as given. -/
def headerEncodeF (c : BitVec 2) (m : BitVec 12) (len : BitVec 16) (k : BitVec 32) (tid : Tid) :
    Except CmdError (List Byte) :=
  match typeEncodeF c m with
  | .error e => .error e
  | .ok t => .ok (bytes16 t ++ bytes16 len ++ bytes32 k ++ bytes96 tid)

/-- The six header registers written from a header record (R122). -/
def State.writeHeader (s : State) (h : Header) : State :=
  (((((s.writeReg .type h.type).writeReg .cls h.cls).writeReg .method h.method).writeReg .msgLen h.msgLen).writeReg
    .cookie h.cookie).writeReg .tid h.tid

/-- An encoded message put in OBUF from index 0, with its length in OBUF_LEN; bytes beyond it keep their values
(R124, R143, spec/20_memory.md R52). -/
def State.writeOutput (s : State) (bs : List Byte) : State :=
  (s.memWrite .obuf 0 bs).writeReg .obufLen (BitVec.ofNat 16 bs.length)

/-- HDR_DEC (R122): the attribute registers and VAL are not touched. -/
def execHdrDec (s : State) : Result :=
  match headerDecodeF (s.byte .ibuf) s.ibufLen.toNat with
  | .ok h => completeOk 0b010 (s.writeHeader h)
  | .error e => raiseError e 0b010 s

/-- HDR_ENC (R124). -/
def execHdrEnc (s : State) : Result :=
  match headerEncodeF s.cls s.method s.msgLen s.cookie s.tid with
  | .ok bs => completeOk 0b011 (s.writeOutput bs)
  | .error e => raiseError e 0b011 s

end Sys2Proof.Machine
end

