-- ==== Sys2Proof/Machine/Illegal.lean ====
section
/-! DEFINITION. The illegal command words (spec/30_encoding.md R72): STATUS is written and nothing else. -/

namespace Sys2Proof.Machine

/-- CMD byte 0x07 (R72): CMD_ILLEGAL with LAST_OP = CMD[2:0] = 0b111. -/
def execCmdIllegal (s : State) : Result := raiseError .cmdIllegal 0b111 s

/-- A CMD byte with RSV set (R72): CMD_ILLEGAL with LAST_OP = CMD[2:0], whatever OP would have selected. -/
def execCmdIllegalRsv (op : BitVec 3) (s : State) : Result := raiseError .cmdIllegal op s

end Sys2Proof.Machine
end

