-- ==== Sys2Proof/Machine/MessageCodec.lean ====
section
/-! DEFINITION. The message decoder and encoder, header and one attribute (spec/42_message_codec.md): MessageDecodeF, MessageEncodeF,
MSG_DEC and MSG_ENC. No length is cross-checked and nothing is padded (R144); the value is opaque (R146). -/

namespace Sys2Proof.Machine

/-- A message record {header, present, atype, alen, value} (R140). -/
structure Message where
  header  : Header
  present : BitVec 1
  atype   : BitVec 16
  alen    : BitVec 16
  value   : List Byte
  deriving DecidableEq, Repr

/-- MessageDecodeF(B, n) (R140): the datagram's own length n decides, never a length field (spec/30_encoding.md R81). -/
def messageDecodeF (B : Nat → Byte) (n : Nat) : Except CmdError Message :=
  match headerDecodeF B n with
  | .error e => .error e
  | .ok h =>
    if n = hdrLen then .ok { header := h, present := 0, atype := 0x0000, alen := 0x0000, value := [] }
    else if n < hdrLen + attrHdrLen then .error .fmtAttrTrunc
    else .ok { header := h, present := 1, atype := be16At B 20, alen := be16At B 22, value := slice B 24 (n - 24) }

/-- MessageEncodeF(c, m, len, k, tid, present, atype, alen, value) (R142). -/
def messageEncodeF (c : BitVec 2) (m : BitVec 12) (len : BitVec 16) (k : BitVec 32) (tid : Tid) (present : BitVec 1)
    (atype alen : BitVec 16) (value : List Byte) : Except CmdError (List Byte) :=
  match headerEncodeF c m len k tid with
  | .error e => .error e
  | .ok hdr => if present = 0 then .ok hdr else .ok (hdr ++ bytes16 atype ++ bytes16 alen ++ value)

/-- The attribute registers and VAL written from a message record (R141): VAL beyond the value keeps its bytes (R52). -/
def State.writeAttr (s : State) (r : Message) : State :=
  ((((s.writeReg .attrPresent r.present).writeReg .attrType r.atype).writeReg .attrLen r.alen).writeReg
    .valCnt (BitVec.ofNat 16 r.value.length)).memWrite .val 0 r.value

/-- MSG_DEC (R141). -/
def execMsgDec (s : State) : Result :=
  match messageDecodeF (s.byte .ibuf) s.ibufLen.toNat with
  | .ok r => completeOk 0b100 ((s.writeHeader r.header).writeAttr r)
  | .error e => raiseError e 0b100 s

/-- The value bytes MSG_ENC emits: VAL[0..VAL_CNT) when there is an attribute, none otherwise (R143). -/
def State.attrValue (s : State) : List Byte :=
  if s.attrPresent = 1 then s.memRead .val 0 s.valCnt.toNat else []

/-- MSG_ENC (R143): the method is checked before the value's length (spec/60_exceptions.md R203), and VAL_CNT only when there is an
attribute. -/
def execMsgEnc (s : State) : Result :=
  if !knownMethod s.method then raiseError .encMethodUnknown 0b101 s
  else if s.attrPresent = 1 ∧ s.valMax < s.valCnt.toNat then raiseError .encValueOverflow 0b101 s
  else
    match messageEncodeF s.cls s.method s.msgLen s.cookie s.tid s.attrPresent s.attrType s.attrLen s.attrValue with
    | .ok bs => completeOk 0b101 (s.writeOutput bs)
    | .error e => raiseError e 0b101 s

end Sys2Proof.Machine
end

