-- ==== Sys2Proof/Machine/XorMapped.lean ====
section
/-! DEFINITION. The XOR-MAPPED-ADDRESS builder (spec/43_xor_mapped_address.md): XmaBuildF and XMA_BUILD. IPv4 only, with the constant cookie and
no transaction id (R160, R164). -/

namespace Sys2Proof.Machine

/-- XmaBuildF(ip, port) (R160). -/
def xmaBuildF (ip : BitVec 32) (port : BitVec 16) : List Byte :=
  [0x00, familyIpv4] ++ bytes16 (port ^^^ magicHi16) ++ bytes32 (ip ^^^ magicCookie)

/-- Eight bytes as a 64-bit register, byte 0 in bits 63:56 (spec/10_state.md R40). -/
def be64Of (bs : List Byte) : BitVec 64 := be32At (bytesOf bs) 0 ++ be32At (bytesOf bs) 4

/-- Byte k of XMA_OUT, `XMA_OUT[63-8k : 56-8k]` (spec/10_state.md R40). -/
def xmaByte (v : BitVec 64) (k : Nat) : Byte := v.extractLsb' (56 - 8 * k) 8

/-- XMA_BUILD (R161): total, no error. -/
def execXmaBuild (s : State) : Result :=
  completeOk 0b110 (s.writeReg .xmaOut (be64Of (xmaBuildF s.peerIp s.peerPort)))

end Sys2Proof.Machine
end

