-- ==== Sys2Proof/Syntax.lean ====
section
/-! DEFINITION. The instructions: one constructor per row of spec/opcode_table.json. A command has no operand
field (spec/30_encoding.md R70): its operands are implicit registers and buffers (R73). Only the last row, which
stands for many bytes, carries the bits that vary. -/

namespace Sys2Proof

/-- A command of the block (spec/30_encoding.md R71), or one of the two rows of illegal command words (R72). -/
inductive Instr where
  | typeEnc                                            -- TYPE_ENC, 0x00
  | typeDec                                            -- TYPE_DEC, 0x01
  | hdrDec                                             -- HDR_DEC, 0x02
  | hdrEnc                                             -- HDR_ENC, 0x03
  | msgDec                                             -- MSG_DEC, 0x04
  | msgEnc                                             -- MSG_ENC, 0x05
  | xmaBuild                                           -- XMA_BUILD, 0x06
  | cmdIllegal                                         -- 0x07, reserved: raises CMD_ILLEGAL
  | cmdIllegalRsv (rsv : BitVec 5) (op : BitVec 3)     -- 0x08 to 0xFF, RSV not zero: raises CMD_ILLEGAL
  deriving DecidableEq, Repr

end Sys2Proof
end

