-- ==== Sys2Proof/Machine/Dispatch.lean ====
section
/-! DEFINITION. One arm per instruction. -/

namespace Sys2Proof.Machine

def exec (i : Instr) (s : State) : Host.Outcome State Fault Refusal :=
  match i with
  | .typeEnc => Sys2Proof.Machine.execTypeEnc s
  | .typeDec => Sys2Proof.Machine.execTypeDec s
  | .hdrDec => Sys2Proof.Machine.execHdrDec s
  | .hdrEnc => Sys2Proof.Machine.execHdrEnc s
  | .msgDec => Sys2Proof.Machine.execMsgDec s
  | .msgEnc => Sys2Proof.Machine.execMsgEnc s
  | .xmaBuild => Sys2Proof.Machine.execXmaBuild s
  | .cmdIllegal => Sys2Proof.Machine.execCmdIllegal s
  | .cmdIllegalRsv _ op => Sys2Proof.Machine.execCmdIllegalRsv op s

end Sys2Proof.Machine
end

