-- ==== Sys2Proof/WellFormed.lean ====
section
/-! DEFINITION. Which terms of Instr stand for a command word. -/

namespace Sys2Proof

/-- The row of the illegal words 0x08 to 0xFF asks for a nonzero RSV field (spec/30_encoding.md R72); every other row is one
exact byte. -/
def Instr.wf : Instr → Bool
  | .cmdIllegalRsv rsv _ => rsv != 0
  | .typeEnc | .typeDec | .hdrDec | .hdrEnc | .msgDec | .msgEnc | .xmaBuild | .cmdIllegal => true

end Sys2Proof
end

