-- ==== Sys2Proof/Decode.lean ====
section
/-! DEFINITION. From a CMD word to the command it selects, and back (spec/30_encoding.md R70 to R72). -/

namespace Sys2Proof

/-- `OP = CMD[2:0]` (R70). -/
def cmdOp (w : Byte) : BitVec 3 := w.extractLsb' 0 3

/-- `RSV = CMD[7:3]` (R70). -/
def cmdRsv (w : Byte) : BitVec 5 := w.extractLsb' 3 5

/-- The command a CMD byte selects. A byte with RSV set is illegal whatever its OP (R72); otherwise OP selects the row (R71). -/
def decodeByte (w : Byte) : Instr :=
  if cmdRsv w = 0 then
    match (cmdOp w).toNat with
    | 0 => .typeEnc
    | 1 => .typeDec
    | 2 => .hdrDec
    | 3 => .hdrEnc
    | 4 => .msgDec
    | 5 => .msgEnc
    | 6 => .xmaBuild
    | _ => .cmdIllegal
  else .cmdIllegalRsv (cmdRsv w) (cmdOp w)

/-- Why a list of bytes spells no command: every byte spells one, so only the empty list does not. -/
inductive DecodeError where
  | noCommandByte
  deriving DecidableEq, Repr

/-- The command at the head of a list of bytes, with the bytes after it: exactly one byte is taken (R74). -/
def decode : List Byte → Except DecodeError (Instr × List Byte)
  | [] => .error .noCommandByte
  | w :: rest => .ok (decodeByte w, rest)

/-- The CMD byte of a command (R71); for the row of illegal words, the byte with the given RSV and OP fields (R70). -/
def encodeByte : Instr → Byte
  | .typeEnc => 0x00
  | .typeDec => 0x01
  | .hdrDec => 0x02
  | .hdrEnc => 0x03
  | .msgDec => 0x04
  | .msgEnc => 0x05
  | .xmaBuild => 0x06
  | .cmdIllegal => 0x07
  | .cmdIllegalRsv rsv op => rsv ++ op

/-- The bytes of a command: one CMD byte (R74). -/
def encode (i : Instr) : List Byte := [encodeByte i]

/-- The LAST_OP value a command reports, `o = CMD[2:0]` of its own word (spec/60_exceptions.md R204, R205). -/
def Instr.op (i : Instr) : BitVec 3 := cmdOp (encodeByte i)

/-- The command the decoder reads from a word numbered as spec/opcode_table.json numbers it. A command is one byte, so a
word with a bit above bit 7 among its `nbits` spells none. -/
def decodeTableWord (nbits w : Nat) : Option Instr :=
  let v := w % 2 ^ nbits
  if v < 256 then
    match decode [BitVec.ofNat 8 v] with
    | .ok (i, []) => some i
    | .ok (_, _ :: _) => none
    | .error _ => none
  else none

end Sys2Proof
end

