-- ==== Sys2Proof/Machine/Operands.lean ====
section
/-! DEFINITION. The operand forms of the host's statements (spec/30_encoding.md R83): a register by index, a field of STATUS or CMD, a
buffer byte by index, a sender's address. The commands themselves have implicit operands only (R73): their meanings name them. -/

namespace Sys2Proof.Machine

/-- The 32-bit word of a sender's address a.b.c.d: be32(a, b, c, d) (spec/20_memory.md R55, spec/10_state.md R38). -/
def Peer.ip (p : Peer) : BitVec 32 := be32 p.a p.b p.c p.d

/-- A field of STATUS as a number (spec/10_state.md R25). -/
def StatusField.value (v : BitVec 16) : StatusField → Nat
  | .done => (statusDone v).toNat
  | .err => (statusErr v).toNat
  | .ecode => (statusEcode v).toNat
  | .lastOp => (statusLastOp v).toNat

/-- A field of CMD as a number (spec/30_encoding.md R70). -/
def CmdField.value (v : Byte) : CmdField → Nat
  | .op => (cmdOp v).toNat
  | .rsv => (cmdRsv v).toNat

/-- The value a host branch compares, or the refusal of a reserved register index (spec/45_host_interface.md R172). -/
def HostOperand.value (s : State) : HostOperand → Except Refusal Nat
  | .reg idx =>
    match Reg.ofIndex idx with
    | some r => .ok (s.readReg r).toNat
    | none => .error (.reservedRegister idx)
  | .status f => .ok (f.value s.status)
  | .cmd f => .ok (f.value s.cmd)

end Sys2Proof.Machine
end

