-- ==== Sys2Proof/Machine/HostActions.lean ====
section
/-! DEFINITION. What each statement of a host program does (spec/45_host_interface.md R170 to R176, spec/30_encoding.md R83, R84). The
statement has already been taken off the host's list: `s` is the state with the rest of the list. -/

namespace Sys2Proof.Machine

/-- The state with the host's remaining statements replaced. -/
def State.withRest (s : State) (rest : List Stmt) : State := { s with host := { s.host with rest := rest } }

/-- The state with the value the host's last read returned (R172, R173, log 9). -/
def State.returned (s : State) (v : Nat) : State := { s with host := { s.host with lastRead := some v } }

/-- `CMD <- w` (R176), the half of a command issue that is not the command. -/
def State.latchCmd (s : State) (w : Byte) : State := s.writeReg .cmd w

/-- A command issue (R176): `CMD <- w` and the command w selects, one atomic step (spec/10_state.md R23). -/
def issueCommand (w : Byte) (s : State) : Result := exec (decodeByte w) (s.latchCmd w)

/-- What a host write of a register other than CMD does (R171): a read-only register keeps its value, IBUF_LEN takes
min(v, RX_BUF_SIZE) (spec/10_state.md R36), any other takes v. -/
def State.hostWrite (s : State) (r : Reg) (v : Nat) : State :=
  match r.access with
  | .readOnly => s
  | .clamped => s.writeReg r (BitVec.ofNat r.width (min v s.cfg.rxBufSize))
  | .readWrite => s.writeReg r (BitVec.ofNat r.width v)
  | .issues => s.writeReg r (BitVec.ofNat r.width v)

/-- WR REG, v (R171): v has exactly the register's width (log 7); a write of CMD issues the command (R176). -/
def runWr (idx : Byte) (v : Nat) (s : State) : Result :=
  match Reg.ofIndex idx with
  | none => .refused (.reservedRegister idx)
  | some r =>
    if v < 2 ^ r.width then
      if r = .cmd then issueCommand (BitVec.ofNat 8 v) s else .next (s.hostWrite r v)
    else .refused (.valueTooWide idx v)

/-- RD REG (R172): the value is returned and the block is unchanged. -/
def runRd (idx : Byte) (s : State) : Result :=
  match Reg.ofIndex idx with
  | none => .refused (.reservedRegister idx)
  | some r => .next (s.returned (s.readReg r).toNat)

/-- WRB BUF[i], b (R173): OBUF is read-only, so a write there changes nothing. -/
def runWrb (sp : Space) (i : Nat) (b : Byte) (s : State) : Result :=
  if i < s.sizeOf sp then
    match sp with
    | .obuf => .next s
    | .ibuf => .next (s.memWrite .ibuf i [b])
    | .val => .next (s.memWrite .val i [b])
  else .refused (.bufferIndexOutOfRange sp i)

/-- RDB BUF[i] (R173). -/
def runRdb (sp : Space) (i : Nat) (s : State) : Result :=
  if i < s.sizeOf sp then .next (s.returned (s.byte sp i).toNat)
  else .refused (.bufferIndexOutOfRange sp i)

/-- PEER_IP <- be32(a, b, c, d) and PEER_PORT <- p, from a sender's address a.b.c.d:p (R174). -/
def State.writePeer (s : State) (p : Peer) : State := (s.writeReg .peerIp p.ip).writeReg .peerPort p.port

/-- The PEER registers after an arrival (R174): with no sender given they keep their values, as a host that leaves the writes out. -/
def State.writeSender (s : State) (sender : Option Peer) : State :=
  match sender with
  | some p => s.writePeer p
  | none => s

/-- The state with the sender that the host keeps (log 9). -/
def State.withSender (s : State) (sender : Option Peer) : State := { s with host := { s.host with sender := sender } }

/-- The bytes and the length of an arrived datagram in IBUF and IBUF_LEN (R174): the first RX_BUF_SIZE bytes are kept, silently
(spec/70_reset_and_hazards.md R239). -/
def State.receive (s : State) (bs : List Byte) : State :=
  (s.memWrite .ibuf 0 (bs.take s.cfg.rxBufSize)).writeReg .ibufLen (BitVec.ofNat 16 (min bs.length s.cfg.rxBufSize))

/-- Datagram arrival (R174), one atomic step (R170, log 6); the host keeps the sender's address for SEND (log 9). DESIGN CHOICE, log 17:
a form without a sender leaves the host with none, an earlier datagram's address dropped. -/
def runRx (bs : List Byte) (sender : Option Peer) (s : State) : Result :=
  .next (((s.receive bs).writeSender sender).withSender sender)

/-- SEND (R175): OBUF[0..OBUF_LEN) is handed to the socket, addressed to the sender of the last datagram; the block is unchanged. DESIGN
CHOICE, log 17: after a datagram given without a sender, or before any, the packet has no destination. -/
def runSend (s : State) : Result :=
  .next { s with host := { s.host with
    sent := s.host.sent ++ [{ dest := s.host.sender, bytes := s.memRead .obuf 0 s.obufLen.toNat }] } }

/-- The statements after a label. DESIGN CHOICE, log 16: of a label that stands twice, those after the first in program order; the spec is
silent on it. -/
def afterLabel (l : Label) : List Stmt → Option (List Stmt)
  | [] => none
  | .label l' :: p => if l' = l then some p else afterLabel l p
  | _ :: p => afterLabel l p

/-- The host goes on after a label of its program (R83); a label the program does not have is refused (log 7). -/
def runJmp (l : Label) (s : State) : Result :=
  match afterLabel l s.host.prog with
  | some p => .next (s.withRest p)
  | none => .refused (.unknownLabel l)

/-- A host branch (R83): it reads its operand and goes to the label if the comparison holds. A branch not taken does not need its label
(log 7). -/
def runBranch (o : HostOperand) (taken : Nat → Bool) (l : Label) (s : State) : Result :=
  match o.value s with
  | .error e => .refused e
  | .ok x => if taken x then runJmp l s else .next s

/-- WRB statements for a sequence of bytes from an index on. -/
def wrbFrom (sp : Space) : Nat → List Byte → List Stmt
  | _, [] => []
  | i, b :: bs => .wrb sp i b :: wrbFrom sp (i + 1) bs

/-- WRV b0 .. b(k-1) (R84): `WRB VAL[i], bi` for each i, then `WR VAL_CNT, k`. R84 needs k <= VAL_MAX; a longer one is refused at its
first byte beyond VAL, by R173 (log 7). -/
def expandWrv (bs : List Byte) : List Stmt := wrbFrom .val 0 bs ++ [.wr Reg.valCnt.index bs.length]

/-- PEER a.b.c.d:p (R84): `WR PEER_IP, be32(a, b, c, d)` and then `WR PEER_PORT, p`. These are register writes only: the address SEND goes
to stays as it was (DESIGN CHOICE, log 17). -/
def expandPeer (p : Peer) : List Stmt :=
  [.wr Reg.peerIp.index p.ip.toNat, .wr Reg.peerPort.index p.port.toNat]

/-- CPYXMA (R84): `RD XMA_OUT`, then its eight bytes into VAL, then `WR VAL_CNT, 8`. Nothing can write XMA_OUT between the read and
the byte writes, so the bytes are those it holds now. -/
def expandCpyxma (xma : BitVec 64) : List Stmt :=
  .rd Reg.xmaOut.index ::
    (wrbFrom .val 0 ((List.range xmaValueLen).map (xmaByte xma)) ++ [.wr Reg.valCnt.index xmaValueLen])

/-- A pseudo-instruction: the host puts its expansion in front of the rest of its list (R84, log 5). -/
def runExpansion (e : List Stmt) (s : State) : Result := .next (s.withRest (e ++ s.host.rest))

/-- One statement of the host's program. -/
def runStmt (st : Stmt) (s : State) : Result :=
  match st with
  | .issue w => issueCommand w s
  | .wr idx v => runWr idx v s
  | .rd idx => runRd idx s
  | .wrb sp i b => runWrb sp i b s
  | .rdb sp i => runRdb sp i s
  | .rx bs sender => runRx bs sender s
  | .send => runSend s
  | .beq o v l => runBranch o (fun x => x == v) l s
  | .bne o v l => runBranch o (fun x => x != v) l s
  | .jmp l => runJmp l s
  | .label _ => .next s
  | .stop => .next (s.withRest [])
  | .wrv bs => runExpansion (expandWrv bs) s
  | .cpyxma => runExpansion (expandCpyxma s.xmaOut) s
  | .peer p => runExpansion (expandPeer p) s
  | .reset => .next s.applyReset

end Sys2Proof.Machine
end

