-- ==== Sys2Proof/Machine/Handler.lean ====
section
/-! DEFINITION. The request handler and the listener loop around it, host software that the spec gives as a host program
(spec/45_host_interface.md R177, R178). -/

namespace Sys2Proof.Machine

/-- The label `drop` of R177. -/
def dropLabel : Label := 0

/-- The Binding handler sequence for one datagram (R177). -/
def handlerProgram (a : Arrival) : List Stmt :=
  [ .rx a.bytes (some a.sender),
    .issue 0x04,                                                        -- MSG_DEC
    .bne (.status .err) 0 dropLabel,
    .bne (.reg Reg.cls.index) MsgClass.request.code.toNat dropLabel,
    .bne (.reg Reg.method.index) MsgMethod.binding.code.toNat dropLabel,
    .issue 0x06,                                                        -- XMA_BUILD
    .cpyxma,
    .wr Reg.cls.index MsgClass.successResponse.code.toNat,
    .wr Reg.method.index MsgMethod.binding.code.toNat,
    .wr Reg.msgLen.index respMsgLen.toNat,
    .wr Reg.attrPresent.index 1,
    .wr Reg.attrType.index attrXorMappedAddress.toNat,
    .wr Reg.attrLen.index xmaValueLen,
    .issue 0x05,                                                        -- MSG_ENC
    .send,
    .label dropLabel,
    .stop ]

/-- The handler's two states (R178). -/
inductive HandlerPhase where
  | idle        -- blocked on receive
  | handling    -- processing one datagram
  deriving DecidableEq, Repr

/-- The phase a host is in with these statements to run (R178). Idle is "blocked on receive": it has nothing left, or its next statement is
the receive, or it is past the label `drop`, at the END of R177. So the RX action takes Idle to Handling and `drop` takes Handling to Idle.
R178 gives the two states to the handler of R177 only: reading them of another program the same way is a DESIGN CHOICE, log 10. -/
def phaseOf : List Stmt → HandlerPhase
  | [] => .idle
  | .rx _ _ :: _ => .idle
  | .stop :: _ => .idle
  | _ :: _ => .handling

/-- The phase of the host (R178), read from the statements it has still to run. -/
def State.phase (s : State) : HandlerPhase := phaseOf s.host.rest

/-- The state with a host program put in place from outside, at its first statement (log 4). -/
def State.load (s : State) (p : List Stmt) : State := { s with host := { s.host with prog := p, rest := p } }

/-- The host has no statement left. A datagram waiting in its socket has the handler put in place for it (R178),
whose first statement is the receive; otherwise the block is idle and
holds its state (spec/60_exceptions.md R213, spec/93 A18). -/
def runIdle (s : State) : Result :=
  match s.host.inbox with
  | [] => .next s
  | a :: later => .next (State.load { s with host := { s.host with inbox := later } } (handlerProgram a))

end Sys2Proof.Machine
end

