-- ==== Sys2Proof/Machine/Step.lean ====
section
/-! DEFINITION. One step of the total order of spec/20_memory.md R61. -/

namespace Sys2Proof.Machine

/-- The host's next statement, or, when it has none, the idle step. -/
def step (s : State) : Host.Outcome State Fault Refusal :=
  match s.host.rest with
  | [] => runIdle s
  | st :: rest => runStmt st (s.withRest rest)

/-- The state in which the host's next statement is the issue of the command word `w` (log 4). The block fetches nothing (R22): a command
word reaches it only as a CMD write, so that write is put in front of the host's remaining statements. -/
def State.withFetchWord (s : State) (nbits w : Nat) : State :=
  s.withRest (.issue (BitVec.ofNat 8 (w % 2 ^ nbits)) :: s.host.rest)

end Sys2Proof.Machine
end

