-- ==== Sys2Proof/Safety.lean ====
section
/-! DEFINITION. The terms the claims are stated in: what stays the same, what each command reads and writes (spec/30_encoding.md R73), and what
holds between any two steps. -/

namespace Sys2Proof

/-- The registers a command reads (R73). -/
def Instr.readRegs : Instr → List Machine.Reg
  | .typeEnc => [.cls, .method]
  | .typeDec => [.type]
  | .hdrDec => [.ibufLen]
  | .hdrEnc => [.cls, .method, .msgLen, .cookie, .tid]
  | .msgDec => [.ibufLen]
  | .msgEnc => [.cls, .method, .msgLen, .cookie, .tid, .attrPresent, .attrType, .attrLen, .valCnt]
  | .xmaBuild => [.peerIp, .peerPort]
  | .cmdIllegal => []
  | .cmdIllegalRsv _ _ => []

/-- The bytes of a space a command reads, below this index (R73, spec/20_memory.md R51). -/
def Instr.readBelow (s : Machine.State) (sp : Space) : Instr → Nat
  | .hdrDec => if sp = .ibuf then 20 else 0
  | .msgDec => if sp = .ibuf then s.ibufLen.toNat else 0
  | .msgEnc => if sp = .val then s.valCnt.toNat else 0
  | .typeEnc | .typeDec | .hdrEnc | .xmaBuild | .cmdIllegal | .cmdIllegalRsv _ _ => 0

/-- The registers a command may write, STATUS always among them (R73). -/
def Instr.writeRegs : Instr → List Machine.Reg
  | .typeEnc => [.type, .status]
  | .typeDec => [.cls, .method, .status]
  | .hdrDec => [.type, .cls, .method, .msgLen, .cookie, .tid, .status]
  | .hdrEnc => [.obufLen, .status]
  | .msgDec => [.type, .cls, .method, .msgLen, .cookie, .tid, .attrPresent, .attrType, .attrLen, .valCnt, .status]
  | .msgEnc => [.obufLen, .status]
  | .xmaBuild => [.xmaOut, .status]
  | .cmdIllegal => [.status]
  | .cmdIllegalRsv _ _ => [.status]

/-- The bytes of a space a command may write are below this index, read from the state after it (R73, spec/20_memory.md R51, R52). -/
def Instr.writtenBelow (t : Machine.State) (sp : Space) : Instr → Nat
  | .hdrEnc => if sp = .obuf then 20 else 0
  | .msgEnc => if sp = .obuf then t.obufLen.toNat else 0
  | .msgDec => if sp = .val then t.valCnt.toNat else 0
  | .typeEnc | .typeDec | .hdrDec | .xmaBuild | .cmdIllegal | .cmdIllegalRsv _ _ => 0

/-- The errors a command can raise (spec/60_exceptions.md R202). -/
def Instr.errors : Instr → List Machine.CmdError
  | .typeEnc => [.encMethodUnknown]
  | .typeDec => [.fmtTypeReserved, .fmtMethodUnknown]
  | .hdrDec => [.fmtHdrTrunc, .fmtTypeReserved, .fmtMethodUnknown, .fmtCookie]
  | .hdrEnc => [.encMethodUnknown]
  | .msgDec => [.fmtHdrTrunc, .fmtTypeReserved, .fmtMethodUnknown, .fmtCookie, .fmtAttrTrunc]
  | .msgEnc => [.encMethodUnknown, .encValueOverflow]
  | .xmaBuild => []
  | .cmdIllegal => [.cmdIllegal]
  | .cmdIllegalRsv _ _ => [.cmdIllegal]

end Sys2Proof

namespace Sys2Proof.Machine

/-- The value of the n-byte field at wire offset a, the sum of R54: B[a] is the most significant byte (spec/20_memory.md R54). -/
def fieldValue (B : Nat → Byte) (a n : Nat) : Nat :=
  ((List.range n).map (fun k => (B (a + k)).toNat * 2 ^ (8 * (n - 1 - k)))).sum

/-- Every register but the listed ones has the same value. -/
def SameRegsBut (rs : List Reg) (s t : State) : Prop := ∀ r, r ∉ rs → t.readReg r = s.readReg r

/-- Every byte of a space reads the same. -/
def SameBytes (sp : Space) (s t : State) : Prop := ∀ i, t.byte sp i = s.byte sp i

/-- Every byte of a space at or beyond index n reads the same. -/
def SameBytesFrom (n : Nat) (sp : Space) (s t : State) : Prop := ∀ i, n ≤ i → t.byte sp i = s.byte sp i

/-- The parameter, the reset count and the host are the same: what no command touches. -/
def SameOutside (s t : State) : Prop := t.cfg = s.cfg ∧ t.epoch = s.epoch ∧ t.host = s.host

/-- All of the block and all around it is the same but STATUS, which has the given value. -/
def OnlyStatus (v : BitVec 16) (s t : State) : Prop :=
  t.status = v ∧ SameRegsBut [.status] s t ∧ (∀ sp, SameBytes sp s t) ∧ SameOutside s t

/-- The host statements that read the block or steer the host and so leave the block as it is: reads, SEND, branches, jumps, labels, END and
the pseudo-instructions' expansion (spec/45_host_interface.md R172, R173, R175, spec/30_encoding.md R83, R84). -/
def Stmt.leavesBlock : Stmt → Bool
  | .rd _ | .rdb _ _ | .send | .beq _ _ _ | .bne _ _ _ | .jmp _ | .label _ | .stop | .wrv _ | .cpyxma | .peer _ => true
  | .issue _ | .wr _ _ | .wrb _ _ _ | .rx _ _ | .reset => false

/-- A legal STATUS value (spec/10_state.md R25): the reset value, or one a command leaves, with ERR = 1 iff ECODE is not 0, ECODE one of
0 to 9, and the reserved bits 0. -/
def StatusLegal (v : BitVec 16) : Prop :=
  v = 0 ∨ (∃ o, v = statusOk o) ∨ (∃ e o, v = statusError e o)

/-- A buffer in canonical form with every listed index below the space's size. -/
def BufOk (s : State) (sp : Space) : Prop := (s.buf sp).wf = true ∧ Memory.within (s.sizeOf sp) (s.buf sp) = true

/-- What holds between any two steps. The parameter is in R7's range, the buffers are in canonical form within their sizes (R50), IBUF_LEN
is at most RX_BUF_SIZE (R36) and OBUF_LEN too (R53), STATUS is legal (R25) and its LAST_OP is OP of the last CMD word (R25), and XMA_OUT
is its reset value or begins 0x00 0x01 (R40, R161). -/
structure Inv (s : State) : Prop where
  cfg     : s.cfg.ok
  bufs    : ∀ sp, BufOk s sp
  ibufLen : s.ibufLen.toNat ≤ s.cfg.rxBufSize
  obufLen : s.obufLen.toNat ≤ s.cfg.rxBufSize
  status  : StatusLegal s.status
  lastOp  : statusLastOp s.status = cmdOp s.cmd
  xmaOut  : s.xmaOut = 0 ∨ s.xmaOut.extractLsb' 48 16 = 0x0001#16

end Sys2Proof.Machine
end

