-- ==== Sys2Proof/Certificates/Slice0/Obligations.lean ====
section
/-! DEFINITION. The statements for the provers. Each docstring names the rule of spec/ it formalises, and the log entry where a clause is the
model's own choice. -/

open Sys2Proof Sys2Proof.Machine

/-! ### Encoding of commands -/

/-- R71, R72: the opcode map, and three of the words with RSV set. -/
def Obligations.CommandWordsDecodeByTheOpcodeMap : Prop :=
  decodeByte 0x00 = .typeEnc ∧ decodeByte 0x01 = .typeDec ∧ decodeByte 0x02 = .hdrDec ∧ decodeByte 0x03 = .hdrEnc ∧
    decodeByte 0x04 = .msgDec ∧ decodeByte 0x05 = .msgEnc ∧ decodeByte 0x06 = .xmaBuild ∧ decodeByte 0x07 = .cmdIllegal ∧
    decodeByte 0x08 = .cmdIllegalRsv 0b00001 0b000 ∧ decodeByte 0x86 = .cmdIllegalRsv 0b10000 0b110 ∧
    decodeByte 0xFF = .cmdIllegalRsv 0b11111 0b111

/-- Decoding what a well-formed command encodes to gives it back, whatever bytes follow. -/
def Obligations.DecodeOfEncodeGivesTheCommand : Prop :=
  ∀ (i : Instr) (rest : List Byte), i.wf = true → decode (encode i ++ rest) = .ok (i, rest)

/-- Each byte has one meaning: what a list of bytes decodes to is well formed and encodes to the bytes taken. -/
def Obligations.EncodeOfDecodeGivesTheBytes : Prop :=
  ∀ (bs : List Byte) (i : Instr) (rest : List Byte), decode bs = .ok (i, rest) → i.wf = true ∧ encode i ++ rest = bs

/-- R72: issuing a byte with OP = 111 or RSV not 0 writes CMD and STATUS = {DONE=1, ERR=1, ECODE=9, LAST_OP=CMD[2:0]} and changes nothing else, and
no other byte reports error 9. -/
def Obligations.IllegalCommandWordsWriteStatusOnly : Prop :=
  ∀ (s : State) (w : Byte),
    ((w.extractLsb 2 0 = 0b111 ∨ w.extractLsb 7 3 ≠ 0) →
      ∃ t, issueCommand w s = .next t ∧ t.cmd = w ∧ t.status.toNat = 0x93 + 256 * (w.toNat % 8) ∧
        SameRegsBut [.cmd, .status] s t ∧ (∀ sp, SameBytes sp s t) ∧ SameOutside s t) ∧
    (¬ (w.extractLsb 2 0 = 0b111 ∨ w.extractLsb 7 3 ≠ 0) →
      ∃ t, issueCommand w s = .next t ∧ t.cmd = w ∧ statusEcode t.status ≠ 9)

/-- R72, the two rows of illegal words as instructions: their whole effect is the STATUS they write. -/
def Obligations.IllegalCommandsCompleteWithError9 : Prop :=
  (∀ s, exec .cmdIllegal s = .next { s with status := 0x0793 }) ∧
    ∀ s rsv op, exec (.cmdIllegalRsv rsv op) s = .next { s with status := 0x0093#16 ||| (op.zeroExtend 16 <<< 8) }

/-- R23, R176 (and log 4): the step whose statement issues a command word is the decoded command's exec after CMD took the word, as is the step of
a host write to CMD, and the word that withFetchWord puts in place is the one the next step runs. -/
def Obligations.StepRunsTheDecodedCommand : Prop :=
  (∀ (s : State) (w : Byte) (rest : List Stmt) (i : Instr), s.host.rest = .issue w :: rest → decode [w] = .ok (i, []) →
    step s = exec i ((s.withRest rest).writeReg .cmd w)) ∧
  (∀ (s : State) (v : Nat) (rest : List Stmt) (i : Instr), s.host.rest = .wr 0x00 v :: rest → v < 256 →
    decode [BitVec.ofNat 8 v] = .ok (i, []) → step s = exec i ((s.withRest rest).writeReg .cmd (BitVec.ofNat 8 v))) ∧
  ∀ (s : State) (w : Byte) (i : Instr), decode [w] = .ok (i, []) →
    step (s.withFetchWord 8 w.toNat) = exec i (s.writeReg .cmd w)

/-! ### The codecs' functions -/

/-- R100. -/
def Obligations.KnownMethodsAreTheSevenCodes : Prop :=
  ∀ m : BitVec 12, knownMethod m = true ↔
    (m = 0x001 ∨ m = 0x003 ∨ m = 0x004 ∨ m = 0x006 ∨ m = 0x007 ∨ m = 0x008 ∨ m = 0x009)

/-- R101: TypeEncodeF bit by bit, and its one error. -/
def Obligations.TypeEncodePlacesClassAndMethodBits : Prop :=
  CmdError.encMethodUnknown.code = 7 ∧
  ∀ (c : BitVec 2) (m : BitVec 12),
    (knownMethod m = false → typeEncodeF c m = .error .encMethodUnknown) ∧
    (knownMethod m = true → ∃ t, typeEncodeF c m = .ok t ∧
      t.extractLsb 15 14 = 0b00 ∧ t.extractLsb 13 9 = m.extractLsb 11 7 ∧ t.getLsbD 8 = c.getLsbD 1 ∧
      t.extractLsb 7 5 = m.extractLsb 6 4 ∧ t.getLsbD 4 = c.getLsbD 0 ∧ t.extractLsb 3 0 = m.extractLsb 3 0)

/-- R102: TypeDecodeF's two checks in their order, the class and method bits it extracts, and that FMT_CLASS_UNKNOWN does not arise. -/
def Obligations.TypeDecodeChecksAndExtracts : Prop :=
  CmdError.fmtTypeReserved.code = 2 ∧ CmdError.fmtMethodUnknown.code = 4 ∧
  (∀ t : BitVec 16, typeDecodeF t ≠ .error .fmtClassUnknown) ∧
  (∀ t : BitVec 16, t.extractLsb 15 14 ≠ 0b00 → typeDecodeF t = .error .fmtTypeReserved) ∧
  ∀ (t : BitVec 16) (c : BitVec 2) (m : BitVec 12), t.extractLsb 15 14 = 0b00 →
    c.getLsbD 1 = t.getLsbD 8 → c.getLsbD 0 = t.getLsbD 4 →
    m.extractLsb 11 7 = t.extractLsb 13 9 → m.extractLsb 6 4 = t.extractLsb 7 5 → m.extractLsb 3 0 = t.extractLsb 3 0 →
    typeDecodeF t = if knownMethod m then .ok (c, m) else .error .fmtMethodUnknown

/-- R103 (which the spec derives from R101 and R102): the two functions are mutual inverses. -/
def Obligations.TypeCodecFunctionsAreMutualInverses : Prop :=
  (∀ (c : BitVec 2) (m : BitVec 12), knownMethod m = true →
    ∃ t, typeEncodeF c m = .ok t ∧ typeDecodeF t = .ok (c, m)) ∧
  ∀ (t : BitVec 16) (c : BitVec 2) (m : BitVec 12), typeDecodeF t = .ok (c, m) → typeEncodeF c m = .ok t

/-- R104 (which the spec derives): the printed table and the two functions agree entry for entry, and every type field outside the table fails as
the rule says. -/
def Obligations.TypeTableAgreesWithTheFunctions : Prop :=
  (∀ (c : BitVec 2) (m : BitVec 12) (t : BitVec 16), typeTableEntry c m = some t ↔ typeEncodeF c m = .ok t) ∧
  (∀ (c : BitVec 2) (m : BitVec 12) (t : BitVec 16), typeTableEntry c m = some t ↔ typeDecodeF t = .ok (c, m)) ∧
  ∀ t : BitVec 16, (∀ c m, typeTableEntry c m ≠ some t) →
    typeDecodeF t = if 0x4000 ≤ t.toNat then .error .fmtTypeReserved else .error .fmtMethodUnknown

/-- R54: the fields a decoder reads and the bytes an encoder writes have the value of R54's sum, most significant byte first. -/
def Obligations.WireFieldsAreBigEndian : Prop :=
  (∀ (B : Nat → Byte) (a : Nat), (be16At B a).toNat = fieldValue B a 2 ∧ (be32At B a).toNat = fieldValue B a 4 ∧
    (be96At B a).toNat = fieldValue B a 12) ∧
  (∀ v : BitVec 16, fieldValue (bytesOf (bytes16 v)) 0 2 = v.toNat) ∧
  (∀ v : BitVec 32, fieldValue (bytesOf (bytes32 v)) 0 4 = v.toNat) ∧
  ∀ v : BitVec 96, fieldValue (bytesOf (bytes96 v)) 0 12 = v.toNat

/-- R120: the validator accepts one value, which on the wire is the four bytes 21 12 A4 42. -/
def Obligations.CookieOkIsTheMagicConstant : Prop :=
  (∀ k : BitVec 32, cookieOk k = true ↔ k = 0x2112A442) ∧
    ∀ B : Nat → Byte, cookieOk (be32At B 4) = true ↔ B 4 = 0x21 ∧ B 5 = 0x12 ∧ B 6 = 0xA4 ∧ B 7 = 0x42

/-- R121: HeaderDecodeF's checks in their order, its fields, and that only the first twenty bytes matter. -/
def Obligations.HeaderDecodeChecksAndFields : Prop :=
  CmdError.fmtHdrTrunc.code = 1 ∧ CmdError.fmtCookie.code = 5 ∧
  ∀ (B : Nat → Byte) (n : Nat),
    (n < 20 → headerDecodeF B n = .error .fmtHdrTrunc) ∧
    (20 ≤ n → ∀ e, typeDecodeF (be16 (B 0) (B 1)) = .error e → headerDecodeF B n = .error e) ∧
    (20 ≤ n → ∀ c m, typeDecodeF (be16 (B 0) (B 1)) = .ok (c, m) →
      (be32 (B 4) (B 5) (B 6) (B 7) ≠ 0x2112A442 → headerDecodeF B n = .error .fmtCookie) ∧
      (be32 (B 4) (B 5) (B 6) (B 7) = 0x2112A442 → ∃ h, headerDecodeF B n = .ok h ∧ h.type.toNat = fieldValue B 0 2 ∧
        h.cls = c ∧ h.method = m ∧ h.msgLen.toNat = fieldValue B 2 2 ∧ h.cookie = 0x2112A442 ∧
        ∀ k, k < 12 → h.tid.extractLsb' (88 - 8 * k) 8 = B (8 + k))) ∧
    ∀ C : Nat → Byte, (∀ k, k < 20 → B k = C k) → headerDecodeF B n = headerDecodeF C n

/-- R123: HeaderEncodeF serialises the four fields in order, as given, or fails on the method alone. -/
def Obligations.HeaderEncodeSerialisesInOrder : Prop :=
  ∀ (c : BitVec 2) (m : BitVec 12) (len : BitVec 16) (k : BitVec 32) (tid : Tid),
    (∀ e, typeEncodeF c m = .error e → headerEncodeF c m len k tid = .error e) ∧
    (∀ t, typeEncodeF c m = .ok t → ∃ bs, headerEncodeF c m len k tid = .ok bs ∧ bs.length = 20 ∧
      fieldValue (bytesOf bs) 0 2 = t.toNat ∧ fieldValue (bytesOf bs) 2 2 = len.toNat ∧
      fieldValue (bytesOf bs) 4 4 = k.toNat ∧ ∀ j, j < 12 → bytesOf bs (8 + j) = tid.extractLsb' (88 - 8 * j) 8)

/-- R125 (which the spec derives): a header with the constant cookie decodes to what was encoded. -/
def Obligations.HeaderRoundTrip : Prop :=
  ∀ (c : BitVec 2) (m : BitVec 12) (len : BitVec 16) (tid : Tid), knownMethod m = true →
    ∃ bs t, headerEncodeF c m len 0x2112A442 tid = .ok bs ∧ typeEncodeF c m = .ok t ∧
      headerDecodeF (bytesOf bs) 20 =
        .ok { type := t, cls := c, method := m, msgLen := len, cookie := 0x2112A442, tid := tid }

/-- R140: MessageDecodeF by the datagram's own length, its fields read big-endian and its value taken whole. -/
def Obligations.MessageDecodeByDatagramLength : Prop :=
  CmdError.fmtAttrTrunc.code = 6 ∧
  ∀ (B : Nat → Byte) (n : Nat),
    (∀ e, headerDecodeF B n = .error e → messageDecodeF B n = .error e) ∧
    ∀ h, headerDecodeF B n = .ok h →
      (n = 20 → messageDecodeF B n = .ok { header := h, present := 0, atype := 0, alen := 0, value := [] }) ∧
      (20 < n → n < 24 → messageDecodeF B n = .error .fmtAttrTrunc) ∧
      (24 ≤ n → ∃ r, messageDecodeF B n = .ok r ∧ r.header = h ∧ r.present = 1 ∧ r.atype.toNat = fieldValue B 20 2 ∧
        r.alen.toNat = fieldValue B 22 2 ∧ r.value.length = n - 24 ∧ ∀ k, k < n - 24 → r.value[k]? = some (B (24 + k)))

/-- R142: MessageEncodeF is the header, then, iff there is an attribute, its type, its length and its value as given. -/
def Obligations.MessageEncodeAppendsTheAttribute : Prop :=
  ∀ (c : BitVec 2) (m : BitVec 12) (len : BitVec 16) (k : BitVec 32) (tid : Tid) (present : BitVec 1) (atype alen : BitVec 16)
    (value : List Byte),
    (∀ e, headerEncodeF c m len k tid = .error e → messageEncodeF c m len k tid present atype alen value = .error e) ∧
    ∀ hdr, headerEncodeF c m len k tid = .ok hdr → ∃ bs, messageEncodeF c m len k tid present atype alen value = .ok bs ∧
      (∀ j, j < 20 → bs[j]? = hdr[j]?) ∧ (present = 0 → bs.length = 20) ∧
      (present = 1 → bs.length = 24 + value.length ∧ fieldValue (bytesOf bs) 20 2 = atype.toNat ∧
        fieldValue (bytesOf bs) 22 2 = alen.toNat ∧ ∀ j, j < value.length → bs[24 + j]? = value[j]?)

/-- R145, first part (which the spec derives): a well-formed message record survives encoding and decoding. -/
def Obligations.MessageRoundTrip : Prop :=
  ∀ (cfg : Config) (r : Message) (t : BitVec 16), cfg.ok → typeEncodeF r.header.cls r.header.method = .ok t →
    r.header.type = t → r.header.cookie = 0x2112A442 →
    (r.present = 0 → r.atype = 0 ∧ r.alen = 0 ∧ r.value = []) → (r.present = 1 → r.value.length ≤ cfg.rxBufSize - 24) →
    ∃ bs, messageEncodeF r.header.cls r.header.method r.header.msgLen r.header.cookie r.header.tid r.present r.atype r.alen
        r.value = .ok bs ∧
      bs.length ≤ cfg.rxBufSize ∧ messageDecodeF (bytesOf bs) bs.length = .ok r

/-- R160: XmaBuildF's eight bytes. -/
def Obligations.XmaBuildFunctionGivesEightBytes : Prop :=
  ∀ (ip : BitVec 32) (port : BitVec 16),
    (xmaBuildF ip port).length = 8 ∧ bytesOf (xmaBuildF ip port) 0 = 0x00 ∧ bytesOf (xmaBuildF ip port) 1 = 0x01 ∧
      fieldValue (bytesOf (xmaBuildF ip port)) 2 2 = (port ^^^ 0x2112).toNat ∧
      fieldValue (bytesOf (xmaBuildF ip port)) 4 4 = (ip ^^^ 0x2112A442).toNat

/-! ### The commands -/

/-- R105. -/
def Obligations.TypeEncCommand : Prop :=
  encodeByte .typeEnc = 0x00 ∧
  (∀ s, knownMethod s.method = true →
    ∃ t, typeEncodeF s.cls s.method = .ok t ∧ exec .typeEnc s = .next { s with type := t, status := 0x0001 }) ∧
  ∀ s, knownMethod s.method = false → exec .typeEnc s = .next { s with status := 0x0073 }

/-- R106. -/
def Obligations.TypeDecCommand : Prop :=
  encodeByte .typeDec = 0x01 ∧
  (∀ s c m, typeDecodeF s.type = .ok (c, m) →
    exec .typeDec s = .next { s with cls := c, method := m, status := 0x0101 }) ∧
  (∀ s, s.type.extractLsb 15 14 ≠ 0 → exec .typeDec s = .next { s with status := 0x0123 }) ∧
  (∀ s, s.type.extractLsb 15 14 = 0 → knownMethod (typeMethod s.type) = false →
    exec .typeDec s = .next { s with status := 0x0143 }) ∧
  ∀ s t, exec .typeDec s = .next t → statusEcode t.status ≠ 3

/-- R122: the result of HDR_DEC, its four errors in their order, and that everything else (the attribute registers and VAL among it) is as it was. -/
def Obligations.HdrDecCommand : Prop :=
  encodeByte .hdrDec = 0x02 ∧
  (∀ s h, headerDecodeF (s.byte .ibuf) s.ibufLen.toNat = .ok h →
    exec .hdrDec s = .next { s with type := h.type, cls := h.cls, method := h.method, msgLen := h.msgLen, cookie := h.cookie, tid := h.tid, status := 0x0201 }) ∧
  (∀ s, s.ibufLen.toNat < 20 → exec .hdrDec s = .next { s with status := 0x0213 }) ∧
  ∀ s, 20 ≤ s.ibufLen.toNat →
    ((s.byte .ibuf 0).extractLsb 7 6 ≠ 0 → exec .hdrDec s = .next { s with status := 0x0223 }) ∧
    ((s.byte .ibuf 0).extractLsb 7 6 = 0 →
      (knownMethod (typeMethod (be16At (s.byte .ibuf) 0)) = false → exec .hdrDec s = .next { s with status := 0x0243 }) ∧
      (knownMethod (typeMethod (be16At (s.byte .ibuf) 0)) = true → fieldValue (s.byte .ibuf) 4 4 ≠ 0x2112A442 →
        exec .hdrDec s = .next { s with status := 0x0253 }) ∧
      (knownMethod (typeMethod (be16At (s.byte .ibuf) 0)) = true → fieldValue (s.byte .ibuf) 4 4 = 0x2112A442 →
        ∃ h, headerDecodeF (s.byte .ibuf) s.ibufLen.toNat = .ok h))

/-- R124: the header in OBUF[0..20), the rest of OBUF and everything else as it was. -/
def Obligations.HdrEncCommand : Prop :=
  encodeByte .hdrEnc = 0x03 ∧
  (∀ s, knownMethod s.method = true → ∃ t f, typeEncodeF s.cls s.method = .ok f ∧ exec .hdrEnc s = .next t ∧
    t.status = 0x0301 ∧ t.obufLen = 20 ∧ fieldValue (t.byte .obuf) 0 2 = f.toNat ∧
    fieldValue (t.byte .obuf) 2 2 = s.msgLen.toNat ∧ fieldValue (t.byte .obuf) 4 4 = s.cookie.toNat ∧
    fieldValue (t.byte .obuf) 8 12 = s.tid.toNat ∧ SameRegsBut [.obufLen, .status] s t ∧ SameBytesFrom 20 .obuf s t ∧
    SameBytes .ibuf s t ∧ SameBytes .val s t ∧ SameOutside s t) ∧
  ∀ s, knownMethod s.method = false → exec .hdrEnc s = .next { s with status := 0x0373 }

/-- R141: every datagram that decodes fills the message registers and VAL, and nothing else changes. -/
def Obligations.MsgDecCommandStoresTheMessage : Prop :=
  encodeByte .msgDec = 0x04 ∧
  ∀ s r, messageDecodeF (s.byte .ibuf) s.ibufLen.toNat = .ok r → ∃ t, exec .msgDec s = .next t ∧ t.status = 0x0401 ∧
    t.type = r.header.type ∧ t.cls = r.header.cls ∧ t.method = r.header.method ∧ t.msgLen = r.header.msgLen ∧
    t.cookie = r.header.cookie ∧ t.tid = r.header.tid ∧ t.attrPresent = r.present ∧ t.attrType = r.atype ∧
    t.attrLen = r.alen ∧ t.valCnt.toNat = r.value.length ∧
    (∀ k, k < r.value.length → r.value[k]? = some (t.byte .val k)) ∧ SameBytesFrom r.value.length .val s t ∧
    SameRegsBut [.type, .cls, .method, .msgLen, .cookie, .tid, .attrPresent, .attrType, .attrLen, .valCnt, .status] s t ∧
    SameBytes .ibuf s t ∧ SameBytes .obuf s t ∧ SameOutside s t

/-- R141, R203: MSG_DEC's five errors, the first that applies in their order, each leaving all but STATUS as it was. -/
def Obligations.MsgDecErrorsInPriorityOrder : Prop :=
  (∀ s, s.ibufLen.toNat < 20 → exec .msgDec s = .next { s with status := 0x0413 }) ∧
  ∀ s, 20 ≤ s.ibufLen.toNat →
    ((s.byte .ibuf 0).extractLsb 7 6 ≠ 0 → exec .msgDec s = .next { s with status := 0x0423 }) ∧
    ((s.byte .ibuf 0).extractLsb 7 6 = 0 →
      (knownMethod (typeMethod (be16At (s.byte .ibuf) 0)) = false → exec .msgDec s = .next { s with status := 0x0443 }) ∧
      (knownMethod (typeMethod (be16At (s.byte .ibuf) 0)) = true →
        (fieldValue (s.byte .ibuf) 4 4 ≠ 0x2112A442 → exec .msgDec s = .next { s with status := 0x0453 }) ∧
        (fieldValue (s.byte .ibuf) 4 4 = 0x2112A442 → 20 < s.ibufLen.toNat → s.ibufLen.toNat < 24 →
          exec .msgDec s = .next { s with status := 0x0463 }) ∧
        (fieldValue (s.byte .ibuf) 4 4 = 0x2112A442 → s.ibufLen.toNat = 20 ∨ 24 ≤ s.ibufLen.toNat →
          ∃ r, messageDecodeF (s.byte .ibuf) s.ibufLen.toNat = .ok r)))

/-- R143, success: the whole message in OBUF[0..OBUF_LEN), VAL_CNT not examined without an attribute, nothing else changed. -/
def Obligations.MsgEncCommandEmitsTheMessage : Prop :=
  encodeByte .msgEnc = 0x05 ∧
  ∀ s, s.cfg.ok → knownMethod s.method = true → (s.attrPresent = 1 → s.valCnt.toNat ≤ s.cfg.rxBufSize - 24) →
    ∃ t f, typeEncodeF s.cls s.method = .ok f ∧ exec .msgEnc s = .next t ∧ t.status = 0x0501 ∧
      t.obufLen.toNat = (if s.attrPresent = 1 then 24 + s.valCnt.toNat else 20) ∧
      fieldValue (t.byte .obuf) 0 2 = f.toNat ∧ fieldValue (t.byte .obuf) 2 2 = s.msgLen.toNat ∧
      fieldValue (t.byte .obuf) 4 4 = s.cookie.toNat ∧ fieldValue (t.byte .obuf) 8 12 = s.tid.toNat ∧
      (s.attrPresent = 1 → fieldValue (t.byte .obuf) 20 2 = s.attrType.toNat ∧
        fieldValue (t.byte .obuf) 22 2 = s.attrLen.toNat ∧
        ∀ k, k < s.valCnt.toNat → t.byte .obuf (24 + k) = s.byte .val k) ∧
      SameRegsBut [.obufLen, .status] s t ∧ SameBytesFrom t.obufLen.toNat .obuf s t ∧ SameBytes .ibuf s t ∧
      SameBytes .val s t ∧ SameOutside s t

/-- R143, R203: MSG_ENC's two errors, the method first, each leaving all but STATUS as it was. -/
def Obligations.MsgEncErrorsInPriorityOrder : Prop :=
  (∀ s, knownMethod s.method = false → exec .msgEnc s = .next { s with status := 0x0573 }) ∧
  ∀ s, knownMethod s.method = true → s.attrPresent = 1 → s.cfg.rxBufSize - 24 < s.valCnt.toNat →
    exec .msgEnc s = .next { s with status := 0x0583 }

/-- R161. -/
def Obligations.XmaBuildCommand : Prop :=
  encodeByte .xmaBuild = 0x06 ∧
  ∀ s, exec .xmaBuild s = .next { s with xmaOut := 0x0001#16 ++ (s.peerPort ^^^ 0x2112) ++ (s.peerIp ^^^ 0x2112A442), status := 0x0601 }

/-- R162 (which the spec derives): each output bit is its input bit, inverted exactly where the constant has a one. -/
def Obligations.XorTreeInvertsTheCookieBits : Prop :=
  ∀ s, ∃ t, exec .xmaBuild s = .next t ∧
    (∀ i, i < 16 → t.xmaOut.getLsbD (32 + i) = Bool.xor (s.peerPort.getLsbD i) (decide (i ∈ [1, 4, 8, 13]))) ∧
    ∀ i, i < 32 → t.xmaOut.getLsbD i = Bool.xor (s.peerIp.getLsbD i) (decide (i ∈ [1, 6, 10, 13, 15, 17, 20, 24, 29]))

/-- R163 (which the spec derives): building again from the built port and address gives the original ones back. -/
def Obligations.XmaBuildTwiceGivesTheAddressBack : Prop :=
  ∀ s, ∃ t, exec .xmaBuild s = .next t ∧
    ∃ u, exec .xmaBuild { t with peerPort := t.xmaOut.extractLsb' 32 16, peerIp := t.xmaOut.extractLsb' 0 32 } = .next u ∧
      u.xmaOut.extractLsb' 32 16 = s.peerPort ∧ u.xmaOut.extractLsb' 0 32 = s.peerIp

/-- R143's example (which the spec derives) over the layout of R82 and R80: with the response's fields and a built XOR-MAPPED-ADDRESS value in VAL,
MSG_ENC emits the 32-byte Binding Success Response, whose last six bytes are the XORed port and address. -/
def Obligations.MsgEncEmitsTheBindingResponse : Prop :=
  ∀ (s : State) (ip : BitVec 32) (port : BitVec 16), s.cfg.ok → s.cls = 0b10 → s.method = 0x001 → s.msgLen = 12 →
    s.cookie = 0x2112A442 → s.attrPresent = 1 → s.attrType = 0x0020 → s.attrLen = 8 → s.valCnt = 8 →
    s.memRead .val 0 8 = xmaBuildF ip port →
    ∃ t, exec .msgEnc s = .next t ∧ t.obufLen = 32 ∧ t.status = 0x0501 ∧
      t.memRead .obuf 0 8 = [0x01, 0x01, 0x00, 0x0C, 0x21, 0x12, 0xA4, 0x42] ∧
      (∀ k, k < 12 → t.byte .obuf (8 + k) = s.tid.extractLsb' (88 - 8 * k) 8) ∧
      t.memRead .obuf 20 6 = [0x00, 0x20, 0x00, 0x08, 0x00, 0x01] ∧
      fieldValue (t.byte .obuf) 26 2 = (port ^^^ 0x2112).toNat ∧ fieldValue (t.byte .obuf) 28 4 = (ip ^^^ 0x2112A442).toNat

/-- R145, second part (which the spec derives): MSG_ENC, then any state whose IBUF holds the emitted bytes, then MSG_DEC, leaves every message
register as it was before MSG_ENC, and TYPE holds the encoded field. -/
def Obligations.EncodeCopyDecodeKeepsTheMessage : Prop :=
  ∀ s, s.cfg.ok → knownMethod s.method = true → s.cookie = 0x2112A442 →
    (s.attrPresent = 0 → s.attrType = 0 ∧ s.attrLen = 0 ∧ s.valCnt = 0) →
    (s.attrPresent = 1 → s.valCnt.toNat ≤ s.cfg.rxBufSize - 24) →
    ∃ t, exec .msgEnc s = .next t ∧ t.obufLen.toNat ≤ s.cfg.rxBufSize ∧
      ∀ u, u.ibufLen = t.obufLen → (∀ k, k < t.obufLen.toNat → u.byte .ibuf k = t.byte .obuf k) →
        ∃ v, exec .msgDec u = .next v ∧ v.status = 0x0401 ∧ typeEncodeF s.cls s.method = .ok v.type ∧ v.cls = s.cls ∧
          v.method = s.method ∧ v.msgLen = s.msgLen ∧ v.cookie = s.cookie ∧ v.tid = s.tid ∧
          v.attrPresent = s.attrPresent ∧ v.attrType = s.attrType ∧ v.attrLen = s.attrLen ∧ v.valCnt = s.valCnt ∧
          ∀ k, k < s.valCnt.toNat → v.byte .val k = s.byte .val k

/-! ### Rules over all commands -/

/-- R23, R25, R180: every command completes in its step, whatever the state, and leaves DONE = 1, its own LAST_OP, ERR = 1 iff ECODE is not 0, a code R201
names but not 3, and the reserved bits 0. -/
def Obligations.EveryCommandCompletesAndReports : Prop :=
  ∀ (i : Instr) (s : State), ∃ t, exec i s = .next t ∧ t.status.getLsbD 0 = true ∧ t.status.extractLsb 10 8 = i.op ∧
    (t.status.getLsbD 1 = true ↔ t.status.extractLsb 7 4 ≠ 0) ∧ (t.status.extractLsb 7 4).toNat ≤ 9 ∧
    t.status.extractLsb 7 4 ≠ 3 ∧ t.status.extractLsb 3 2 = 0 ∧ t.status.extractLsb 15 11 = 0

/-- R204: a command that reports an error has written STATUS = {DONE=1, ERR=1, ECODE=code, LAST_OP=o} and nothing else. -/
def Obligations.ErrorsWriteStatusOnly : Prop :=
  ∀ (i : Instr) (s t : State), exec i s = .next t → t.status.getLsbD 1 = true →
    ∃ e : CmdError, t.status.toNat = 3 + 16 * e.code.toNat + 256 * i.op.toNat ∧ OnlyStatus t.status s t

/-- R205: a command that reports no error ends with STATUS = {DONE=1, ERR=0, ECODE=0, LAST_OP=o}. -/
def Obligations.SuccessReportsDoneAndLastOp : Prop :=
  ∀ (i : Instr) (s t : State), exec i s = .next t → t.status.getLsbD 1 = false → t.status.toNat = 1 + 256 * i.op.toNat

/-- R202 (which the spec derives): a command raises only the errors of its row, and each of them in some state. -/
def Obligations.ErrorMatrix : Prop :=
  (∀ (i : Instr) (s t : State), exec i s = .next t → statusErr t.status = 1 →
    ∃ e ∈ i.errors, statusEcode t.status = e.code) ∧
  ∀ (i : Instr) (e : CmdError), e ∈ i.errors → ∃ s t : State, exec i s = .next t ∧ t.status = statusError e i.op

/-- R42, R51, R52, R73: a command writes only the registers and the bytes its row names; CMD, the operands, the parameter, the reset count and the host are
never among them. -/
def Obligations.CommandsWriteOnlyTheirOwn : Prop :=
  ∀ (i : Instr) (s t : State), s.cfg.ok → exec i s = .next t →
    SameRegsBut i.writeRegs s t ∧ (∀ sp k, i.writtenBelow t sp ≤ k → t.byte sp k = s.byte sp k) ∧ SameOutside s t

/-- R51, R52, R73, R235: a command's STATUS and results depend only on the registers and bytes its row says it reads. Two states that agree on those
report the same STATUS, and on success agree on all the command writes. -/
def Obligations.CommandsReadOnlyTheirOperands : Prop :=
  ∀ (i : Instr) (s s' t t' : State), s.cfg = s'.cfg → (∀ r ∈ i.readRegs, s.readReg r = s'.readReg r) →
    (∀ sp k, k < i.readBelow s sp → s.byte sp k = s'.byte sp k) → exec i s = .next t → exec i s' = .next t' →
    t.status = t'.status ∧
      (t.status.getLsbD 1 = false → (∀ r ∈ i.writeRegs, t.readReg r = t'.readReg r) ∧
        ∀ sp k, k < i.writtenBelow t sp → t.byte sp k = t'.byte sp k)

/-- R28, R103, R121, R30: a decoder that succeeds leaves a known method (R28), the class and method that TYPE encodes (R103, with R121 for the header it
decodes), and, of a datagram, the constant cookie (R30). -/
def Obligations.DecodersLeaveKnownMethodAndCookie : Prop :=
  ∀ (i : Instr) (s t : State), i ∈ [Instr.typeDec, .hdrDec, .msgDec] → exec i s = .next t →
    t.status.getLsbD 1 = false →
    knownMethod t.method = true ∧ typeEncodeF t.cls t.method = .ok t.type ∧ (i ≠ .typeDec → t.cookie = 0x2112A442)

/-! ### The host's actions -/

/-- R171 (with R36, R42, R176): a host register write, by the register it names; a reserved index is refused. The value has the register's width. -/
def Obligations.HostRegisterWrite : Prop :=
  (∀ (s : State) (idx : Byte) (v : Nat) (rest : List Stmt) (r : Reg), s.host.rest = .wr idx v :: rest → r.index = idx →
    v < 2 ^ r.width →
    (r = .cmd → step s = exec (decodeByte (BitVec.ofNat 8 v)) ((s.withRest rest).writeReg .cmd (BitVec.ofNat 8 v))) ∧
    (r ≠ .cmd → ∃ t, step s = .next t ∧ SameRegsBut [r] s t ∧ (∀ sp, SameBytes sp s t) ∧
      SameOutside (s.withRest rest) t ∧
      (r ∈ [Reg.status, .obufLen, .xmaOut] → t.readReg r = s.readReg r) ∧
      (r = .ibufLen → t.ibufLen.toNat = min v s.cfg.rxBufSize) ∧
      (r ∉ [Reg.status, .obufLen, .xmaOut, .ibufLen] → (t.readReg r).toNat = v))) ∧
  ∀ (s : State) (idx : Byte) (v : Nat) (rest : List Stmt), s.host.rest = .wr idx v :: rest → 0x11 ≤ idx.toNat →
    step s = .refused (.reservedRegister idx)

/-- R172 (the returned value is kept in the host's lastRead, log 9): a host read gives the register's value and changes nothing of the block. -/
def Obligations.HostRegisterRead : Prop :=
  (∀ (s : State) (idx : Byte) (rest : List Stmt) (r : Reg), s.host.rest = .rd idx :: rest → r.index = idx →
    step s = .next { s with host := { s.host with rest := rest, lastRead := some (s.readReg r).toNat } }) ∧
  ∀ (s : State) (idx : Byte) (rest : List Stmt), s.host.rest = .rd idx :: rest → 0x11 ≤ idx.toNat →
    step s = .refused (.reservedRegister idx)

/-- R173: host byte writes and reads of the three buffers; OBUF is not written; an index at or beyond the size is refused. -/
def Obligations.HostBufferAccess : Prop :=
  (∀ (s : State) (sp : Space) (i : Nat) (b : Byte) (rest : List Stmt), s.host.rest = .wrb sp i b :: rest → i < s.sizeOf sp →
    ∃ t, step s = .next t ∧ SameRegsBut [] s t ∧ SameOutside (s.withRest rest) t ∧
      (sp = .obuf → ∀ sp', SameBytes sp' s t) ∧
      (sp ≠ .obuf → t.byte sp i = b ∧ ∀ sp' k, (sp', k) ≠ (sp, i) → t.byte sp' k = s.byte sp' k)) ∧
  (∀ (s : State) (sp : Space) (i : Nat) (rest : List Stmt), s.host.rest = .rdb sp i :: rest → i < s.sizeOf sp →
    step s = .next { s with host := { s.host with rest := rest, lastRead := some (s.byte sp i).toNat } }) ∧
  (∀ (s : State) (sp : Space) (i : Nat) (b : Byte) (rest : List Stmt), s.host.rest = .wrb sp i b :: rest → s.sizeOf sp ≤ i →
    step s = .refused (.bufferIndexOutOfRange sp i)) ∧
  ∀ (s : State) (sp : Space) (i : Nat) (rest : List Stmt), s.host.rest = .rdb sp i :: rest → s.sizeOf sp ≤ i →
    step s = .refused (.bufferIndexOutOfRange sp i)

/-- R174, R239: a datagram of any length arrives, with a sender a.b.c.d:p or without one; the bytes beyond RX_BUF_SIZE are lost, PEER_IP takes
be32(a, b, c, d) and PEER_PORT p if there is a sender and both stay if there is none, and nothing else changes. One atomic step, and the sender
kept in the host's fields, are the model's (log 6, 9, 17). -/
def Obligations.DatagramArrival : Prop :=
  ∀ (s : State) (bs : List Byte) (sender : Option Peer) (rest : List Stmt), s.cfg.ok → s.host.rest = .rx bs sender :: rest →
    ∃ t, step s = .next t ∧ t.ibufLen.toNat = min bs.length s.cfg.rxBufSize ∧
      (∀ k, k < min bs.length s.cfg.rxBufSize → bs[k]? = some (t.byte .ibuf k)) ∧
      (∀ p, sender = some p → t.peerIp.toNat = fieldValue (bytesOf [p.a, p.b, p.c, p.d]) 0 4 ∧ t.peerPort = p.port) ∧
      (sender = none → t.peerIp = s.peerIp ∧ t.peerPort = s.peerPort) ∧
      SameBytesFrom (min bs.length s.cfg.rxBufSize) .ibuf s t ∧ SameBytes .val s t ∧ SameBytes .obuf s t ∧
      SameRegsBut [.ibufLen, .peerIp, .peerPort] s t ∧ t.cfg = s.cfg ∧ t.epoch = s.epoch ∧
      t.host = { s.host with rest := rest, sender := sender }

/-- R175 (the socket's record is the host's, log 9): SEND hands exactly OBUF[0..OBUF_LEN) to the socket and leaves the block unchanged. The destination is
the sender of the last datagram; that it is none before any datagram, or after an RX without a sender, is the model's choice (log 17). -/
def Obligations.TransmissionSendsTheOutput : Prop :=
  ∀ (s : State) (rest : List Stmt), s.host.rest = .send :: rest →
    ∃ t bs, step s = .next t ∧ t.host.sent = s.host.sent ++ [{ dest := s.host.sender, bytes := bs }] ∧
      bs.length = s.obufLen.toNat ∧ (∀ k, k < s.obufLen.toNat → bs[k]? = some (s.byte .obuf k)) ∧ t.host.rest = rest ∧
      SameRegsBut [] s t ∧ ∀ sp, SameBytes sp s t

/-- R83: a host branch compares the register or field it names and goes on after the label or at the next statement, a jump goes on after its label, a label
does nothing and END leaves nothing to run; the block is not touched. That the program stands in State and that each of these is one step are the
model's choices (log 4, 5), as are that a branch not taken needs no label (log 7) and which of two like labels `afterLabel` takes (log 16). -/
def Obligations.HostBranches : Prop :=
  (∀ (s : State) (o : HostOperand) (v x : Nat) (l : Label) (rest p : List Stmt), o.value s = .ok x →
    (s.host.rest = .beq o v l :: rest → (x = v → afterLabel l s.host.prog = some p → step s = .next (s.withRest p)) ∧
      (x ≠ v → step s = .next (s.withRest rest))) ∧
    (s.host.rest = .bne o v l :: rest → (x ≠ v → afterLabel l s.host.prog = some p → step s = .next (s.withRest p)) ∧
      (x = v → step s = .next (s.withRest rest)))) ∧
  (∀ (s : State) (l : Label) (rest p : List Stmt), s.host.rest = .jmp l :: rest → afterLabel l s.host.prog = some p →
    step s = .next (s.withRest p)) ∧
  (∀ (s : State) (l : Label) (rest : List Stmt), s.host.rest = .label l :: rest → step s = .next (s.withRest rest)) ∧
  ∀ (s : State) (rest : List Stmt), s.host.rest = .stop :: rest → step s = .next (s.withRest [])

/-- R84 (one step for the expansion: log 5): CPYXMA, PEER and WRV put the statements the rule lists in front of the rest, PEER's address as be32(a, b, c, d).
R84 needs k <= VAL_MAX of WRV; that a longer one expands the same way, to be refused at its first byte beyond VAL, is the model's choice (log 7). -/
def Obligations.PseudoInstructionsExpand : Prop :=
  (∀ (s : State) (rest : List Stmt), s.host.rest = .cpyxma :: rest → ∃ t, step s = .next t ∧ t = s.withRest t.host.rest ∧
    t.host.rest = [.rd 0x10, .wrb .val 0 (s.xmaOut.extractLsb' 56 8), .wrb .val 1 (s.xmaOut.extractLsb' 48 8),
      .wrb .val 2 (s.xmaOut.extractLsb' 40 8), .wrb .val 3 (s.xmaOut.extractLsb' 32 8), .wrb .val 4 (s.xmaOut.extractLsb' 24 8),
      .wrb .val 5 (s.xmaOut.extractLsb' 16 8), .wrb .val 6 (s.xmaOut.extractLsb' 8 8), .wrb .val 7 (s.xmaOut.extractLsb' 0 8),
      .wr 0x0B 8] ++ rest) ∧
  (∀ (s : State) (p : Peer) (rest : List Stmt), s.host.rest = .peer p :: rest →
    step s = .next (s.withRest (.wr 0x0E (fieldValue (bytesOf [p.a, p.b, p.c, p.d]) 0 4) :: .wr 0x0F p.port.toNat :: rest))) ∧
  ∀ (s : State) (bs : List Byte) (rest : List Stmt), s.host.rest = .wrv bs :: rest →
    ∃ t, step s = .next t ∧ t = s.withRest t.host.rest ∧ t.host.rest.length = bs.length + 1 + rest.length ∧
      (∀ k b, bs[k]? = some b → t.host.rest[k]? = some (Stmt.wrb .val k b)) ∧
      t.host.rest.drop bs.length = .wr 0x0B bs.length :: rest

/-- R22, R58, R172, R173, R175: reads, SEND and the host's own control flow change no register and no byte of the block. The model's choice (log 4, 5): the
step of WRV, CPYXMA and PEER is among them, because it only puts the statements of R84 in front of the rest; the VAL, VAL_CNT and PEER writes R84 gives
them are the steps of those statements. -/
def Obligations.ReadsAndControlFlowLeaveTheBlock : Prop :=
  ∀ (s t : State) (st : Stmt) (rest : List Stmt), s.host.rest = st :: rest → st.leavesBlock = true → step s = .next t →
    SameRegsBut [] s t ∧ (∀ sp, SameBytes sp s t) ∧ t.cfg = s.cfg ∧ t.epoch = s.epoch

/-- R213, R177, R178 (the waiting datagrams are the model's, log 10): with no statement and no datagram waiting the block holds its state; a waiting datagram
puts the handler, the sequence of R177 with its label `drop` written 0, in place and leaves the block as it is. The phase is Idle still, the
receive being the handler's first statement. -/
def Obligations.IdleStepHoldsTheBlock : Prop :=
  (∀ s : State, s.host.rest = [] → s.host.inbox = [] → step s = .next s) ∧
  ∀ (s : State) (a : Arrival) (later : List Arrival), s.host.rest = [] → s.host.inbox = a :: later →
    ∃ t p, step s = .next t ∧ t.host = { s.host with prog := p, rest := p, inbox := later } ∧
      p = [.rx a.bytes (some a.sender), .issue 0x04, .bne (.status .err) 0 0, .bne (.reg 0x03) 0b00 0, .bne (.reg 0x04) 0x001 0,
        .issue 0x06, .cpyxma, .wr 0x03 0b10, .wr 0x04 0x001, .wr 0x05 12, .wr 0x08 1, .wr 0x09 0x0020, .wr 0x0A 8,
        .issue 0x05, .send, .label 0, .stop] ∧
      t.phase = .idle ∧ SameRegsBut [] s t ∧ (∀ sp, SameBytes sp s t) ∧ t.cfg = s.cfg ∧ t.epoch = s.epoch

/-- R178 over the sequence of R177 (the host in State: log 4; one step each: log 5): with a handler's statements still to run, the RX action takes Idle to
Handling; the command after it stays in Handling; a branch taken to `drop`, here the label 0, takes Handling to Idle (a decode failure, another class or
method); a SEND stays in Handling, whatever becomes of the datagram, and the label after it takes Handling to Idle, from where END leaves nothing to run. The clauses that name only the statements left hold of a host with
any program; R178 gives the phases to the handler of R177 only, and that another program's are read the same way is the model's choice (log 10). -/
def Obligations.HandlerPhasesFollowTheDatagram : Prop :=
  (∀ (s : State) (a : Arrival), s.host.rest = handlerProgram a → s.phase = .idle ∧
    ∃ t u, step s = .next t ∧ t.phase = .handling ∧ t.host.rest = (handlerProgram a).tail ∧ step t = .next u ∧ u.phase = .handling) ∧
  (∀ (s : State) (a : Arrival) (o : HostOperand) (v x : Nat) (rest : List Stmt), s.host.prog = handlerProgram a →
    s.host.rest = .bne o v 0 :: rest → o.value s = .ok x → x ≠ v → s.phase = .handling ∧
      ∃ t, step s = .next t ∧ t.phase = .idle ∧ t.host.rest = [.stop]) ∧
  (∀ s : State, s.host.rest = [.send, .label 0, .stop] → s.phase = .handling ∧
    ∃ t u, step s = .next t ∧ t.phase = .handling ∧ t.host.rest = [.label 0, .stop] ∧
      step t = .next u ∧ u.phase = .idle ∧ u.host.rest = [.stop]) ∧
  ∀ s : State, s.host.rest = [.stop] → s.phase = .idle ∧ ∃ t, step s = .next t ∧ t.phase = .idle ∧ t.host.rest = []

/-- R24, R25: only command issues write STATUS and CMD, and CMD then holds the word issued; or it is a reset (R230). The host's list of statements (log 4) and
the reset event's place in it (log 8) are the model's choices. -/
def Obligations.OnlyCommandIssuesWriteStatusAndCmd : Prop :=
  ∀ s t : State, step s = .next t → t.status ≠ s.status ∨ t.cmd ≠ s.cmd →
    (∃ w rest, s.host.rest = .issue w :: rest ∧ t.cmd = w) ∨
      (∃ v rest, s.host.rest = .wr 0x00 v :: rest ∧ t.cmd.toNat = v) ∨ ∃ rest, s.host.rest = .reset :: rest

/-- R171, R172, R173, R180, R181: the steps the model refuses are exactly a host's violations of its duties, each named by the statement that makes it: a WR, RD
or branch of a reserved register index, a WRB or RDB at or beyond the buffer's size, and, the model's choices (log 7), a WR of a value wider than its register
and a jump or taken branch to a label the program lacks. No command issue, datagram or SEND is among them. The host's list is the model's (log 4). -/
def Obligations.RefusalsAreHostViolations : Prop :=
  ∀ (s : State) (r : Refusal), step s = .refused r ↔ ∃ st rest, s.host.rest = st :: rest ∧
    ((∃ idx : Byte, 0x11 ≤ idx.toNat ∧ r = .reservedRegister idx ∧
        ((∃ v, st = .wr idx v) ∨ st = .rd idx ∨ (∃ v l, st = .beq (.reg idx) v l) ∨ ∃ v l, st = .bne (.reg idx) v l)) ∨
      (∃ sp i, s.sizeOf sp ≤ i ∧ r = .bufferIndexOutOfRange sp i ∧ ((∃ b, st = .wrb sp i b) ∨ st = .rdb sp i)) ∨
      (∃ q v, 2 ^ Reg.width q ≤ v ∧ r = .valueTooWide q.index v ∧ st = .wr q.index v) ∨
      ∃ l, afterLabel l s.host.prog = none ∧ r = .unknownLabel l ∧
        (st = .jmp l ∨ (∃ o v, st = .beq o v l ∧ o.value s = .ok v) ∨ ∃ o v x, st = .bne o v l ∧ o.value s = .ok x ∧ x ≠ v))

/-! ### Reset and the invariant -/

/-- R42, R230: the value of every register right after reset. -/
def Obligations.RegistersAtReset : Prop :=
  State.reset.cmd = 0x00 ∧ State.reset.status = 0x0000 ∧ State.reset.type = 0x0000 ∧ State.reset.cls = 0b00 ∧
    State.reset.method = 0x000 ∧ State.reset.msgLen = 0x0000 ∧ State.reset.cookie = 0x2112A442 ∧ State.reset.tid = 0 ∧
    State.reset.attrPresent = 0 ∧ State.reset.attrType = 0x0000 ∧ State.reset.attrLen = 0x0000 ∧
    State.reset.valCnt = 0x0000 ∧ State.reset.ibufLen = 0x0000 ∧ State.reset.obufLen = 0x0000 ∧
    State.reset.peerIp = 0x00000000 ∧ State.reset.peerPort = 0x0000 ∧ State.reset.xmaOut = 0

/-- R230 (the event's place among the host's statements is the model's, log 8; the free contents log 2 and 3): a reset from any state gives every register its
reset value and every buffer byte an unspecified value that depends on nothing the buffers held. -/
def Obligations.ResetEventRestoresTheResetValues : Prop :=
  ∀ (s : State) (rest : List Stmt), s.host.rest = .reset :: rest →
    ∃ t, step s = .next t ∧ (∀ r, t.readReg r = State.reset.readReg r) ∧ t.cfg = s.cfg ∧ t.host = { s.host with rest := rest } ∧
      ∀ sp i, t.byte sp i = Config.freeByte (s.epoch + 1) sp i

/-- R232 (which the spec derives): each command issued straight after reset. -/
def Obligations.CommandsStraightAfterReset : Prop :=
  exec .typeEnc State.reset = .next { State.reset with status := 0x0073 } ∧
    exec .hdrEnc State.reset = .next { State.reset with status := 0x0373 } ∧
    exec .msgEnc State.reset = .next { State.reset with status := 0x0573 } ∧
    exec .typeDec State.reset = .next { State.reset with status := 0x0143 } ∧
    exec .hdrDec State.reset = .next { State.reset with status := 0x0213 } ∧
    exec .msgDec State.reset = .next { State.reset with status := 0x0413 } ∧
    exec .xmaBuild State.reset = .next { State.reset with status := 0x0601, xmaOut := 0x000121122112A442 }

/-- The invariant holds right after reset, whichever RX_BUF_SIZE the block has (log 1). -/
def Obligations.InvariantHoldsAtReset : Prop := Inv State.reset

/-- R25, R36, R40, R50, R53: every step, from any state with the invariant, keeps it: buffers within their sizes and in canonical form, lengths in range,
STATUS legal and naming the last command word, XMA_OUT's first two bytes. -/
def Obligations.EveryStepKeepsTheInvariant : Prop := ∀ s t : State, Inv s → step s = .next t → Inv t
end

