-- ==== Sys2Proof/Laws/Memory.lean ====
section
/-! SUPPORT. The laws of the buffers: a read after a write, every other index alone, and the canonical form kept. -/

namespace Sys2Proof.Machine

/-- A read after a write of one byte. -/
theorem read?_write (m : Memory) (a i : Nat) (b : Byte) :
    Memory.read? (Memory.write m a b) i = if i = a then some b else Memory.read? m i := by
  induction m with
  | nil => simp [Memory.write, Memory.read?, eq_comm]
  | cons c m ih =>
    obtain ⟨k, v⟩ := c
    by_cases h1 : a < k
    · by_cases h : i = a
      · simp [Memory.write, Memory.read?, h1, h]
      · have : ¬ a = i := fun e => h e.symm
        simp [Memory.write, Memory.read?, h1, h, this]
    · by_cases h2 : a = k
      · subst h2
        by_cases h : i = a
        · simp [Memory.write, Memory.read?, h]
        · have : ¬ a = i := fun e => h e.symm
          simp [Memory.write, Memory.read?, h, this]
      · by_cases h3 : k = i
        · subst h3
          have : ¬ k = a := fun e => h2 e.symm
          simp [Memory.write, Memory.read?, h1, h2, this]
        · simp [Memory.write, Memory.read?, h1, h2, h3, ih]

/-- A read after a write of a sequence of bytes. -/
theorem read?_writeBytes (bs : List Byte) : ∀ (m : Memory) (a i : Nat),
    Memory.read? (Memory.writeBytes m a bs) i =
      if a ≤ i ∧ i < a + bs.length then bs[i - a]? else Memory.read? m i := by
  induction bs with
  | nil =>
    intro m a i
    have : ¬ (a ≤ i ∧ i < a + 0) := by omega
    simp only [Memory.writeBytes, List.length_nil, this, if_false]
  | cons b bs ih =>
    intro m a i
    simp only [Memory.writeBytes, ih, read?_write, List.length_cons]
    by_cases h : i = a
    · subst h
      simp
    · by_cases h2 : a + 1 ≤ i ∧ i < a + 1 + bs.length
      · have h3 : a ≤ i ∧ i < a + (bs.length + 1) := by omega
        have h4 : i - a = (i - (a + 1)) + 1 := by omega
        rw [if_pos h2, if_pos h3, h4]
        simp
      · have h3 : ¬ (a ≤ i ∧ i < a + (bs.length + 1)) := by omega
        rw [if_neg h2, if_neg h3, if_neg h]

/-- A write keeps the canonical form. -/
theorem risingFrom_write (m : Memory) : ∀ (lo a : Nat) (b : Byte), lo ≤ a → Memory.risingFrom lo m = true →
    Memory.risingFrom lo (Memory.write m a b) = true := by
  induction m with
  | nil => intro lo a b h _; simp [Memory.write, Memory.risingFrom, h]
  | cons c m ih =>
    obtain ⟨k, v⟩ := c
    intro lo a b h hm
    simp only [Memory.risingFrom, Bool.and_eq_true, decide_eq_true_eq] at hm
    by_cases h1 : a < k
    · simp [Memory.write, h1, Memory.risingFrom, h, hm.2, Nat.succ_le_of_lt h1]
    · by_cases h2 : a = k
      · subst h2
        simp [Memory.write, Memory.risingFrom, h, hm.2]
      · have h4 : k + 1 ≤ a := by omega
        simp [Memory.write, h1, h2, Memory.risingFrom, hm.1, ih (k + 1) a b h4 hm.2]

theorem wf_write (m : Memory) (a : Nat) (b : Byte) (h : m.wf = true) : (Memory.write m a b).wf = true :=
  risingFrom_write m 0 a b (Nat.zero_le a) h

theorem wf_writeBytes (bs : List Byte) : ∀ (m : Memory) (a : Nat), m.wf = true →
    (Memory.writeBytes m a bs).wf = true := by
  induction bs with
  | nil => intro m a h; exact h
  | cons b bs ih => intro m a h; exact ih _ _ (wf_write m a b h)

/-- A write below the size keeps every listed index below it. -/
theorem within_write (m : Memory) (size a : Nat) (b : Byte) (ha : a < size) (h : Memory.within size m = true) :
    Memory.within size (Memory.write m a b) = true := by
  induction m with
  | nil => simpa [Memory.write, Memory.within] using ha
  | cons c m ih =>
    obtain ⟨k, v⟩ := c
    simp only [Memory.within, List.all_cons, Bool.and_eq_true, decide_eq_true_eq] at h ih
    by_cases h1 : a < k
    · simp only [Memory.write, h1, if_true, Memory.within, List.all_cons, Bool.and_eq_true, decide_eq_true_eq]
      exact ⟨ha, h⟩
    · by_cases h2 : a = k
      · simp only [Memory.write, h2, lt_irrefl, if_false, if_true, Memory.within, List.all_cons, Bool.and_eq_true,
          decide_eq_true_eq]
        exact h
      · simp only [Memory.write, h1, h2, if_false, Memory.within, List.all_cons, Bool.and_eq_true, decide_eq_true_eq]
        exact ⟨h.1, ih h.2⟩

theorem within_writeBytes (size : Nat) (bs : List Byte) : ∀ (m : Memory) (a : Nat), a + bs.length ≤ size →
    Memory.within size m = true → Memory.within size (Memory.writeBytes m a bs) = true := by
  induction bs with
  | nil => intro m a _ h; exact h
  | cons b bs ih =>
    intro m a ha h
    simp only [List.length_cons] at ha
    exact ih _ _ (by omega) (within_write m size a b (by omega) h)

theorem read?_of_rising {m : Memory} : ∀ {lo i : Nat}, Memory.risingFrom lo m = true → i < lo → Memory.read? m i = none := by
  induction m with
  | nil => intros; rfl
  | cons c m ih =>
    obtain ⟨k, v⟩ := c
    intro lo i h hi
    simp only [Memory.risingFrom, Bool.and_eq_true, decide_eq_true_eq] at h
    have : ¬ k = i := by omega
    simp [Memory.read?, this, ih h.2 (show i < k + 1 by omega)]

/-- In canonical form, memories that read the same are the same data. -/
theorem eq_of_read? {m : Memory} : ∀ {n : Memory} {lo : Nat}, Memory.risingFrom lo m = true → Memory.risingFrom lo n = true →
    (∀ i, Memory.read? m i = Memory.read? n i) → m = n := by
  induction m with
  | nil =>
    intro n lo _ _ h
    cases n with
    | nil => rfl
    | cons c n => obtain ⟨k, v⟩ := c; have := h k; simp [Memory.read?] at this
  | cons c m ih =>
    obtain ⟨k, v⟩ := c
    intro n lo hm hn h
    cases n with
    | nil => have := h k; simp [Memory.read?] at this
    | cons d n =>
      obtain ⟨k', v'⟩ := d
      simp only [Memory.risingFrom, Bool.and_eq_true, decide_eq_true_eq] at hm hn
      have hk : k = k' := by
        rcases Nat.lt_trichotomy k k' with hlt | he | hlt
        · have := h k
          have hne : ¬ k' = k := by omega
          simp [Memory.read?, hne, read?_of_rising hn.2 (by omega : k < k' + 1)] at this
        · exact he
        · have := h k'
          have hne : ¬ k = k' := by omega
          simp [Memory.read?, hne, read?_of_rising hm.2 (by omega : k' < k + 1)] at this
      subst hk
      have hv : v = v' := by simpa [Memory.read?] using h k
      subst hv
      have : m = n := by
        apply ih hm.2 hn.2
        intro i
        by_cases hi : k = i
        · subst hi; rw [read?_of_rising hm.2 (by omega), read?_of_rising hn.2 (by omega)]
        · simpa [Memory.read?, hi] using h i
      rw [this]

end Sys2Proof.Machine
end

