-- ==== Sys2Proof/Laws/State.lean ====
section
/-! SUPPORT. One lemma per field per update of the state, all true by unfolding once here, so that no later proof unfolds a record update. -/

namespace Sys2Proof.Machine

variable (s : State)

/-! ### Reading a register is reading its field -/

@[simp] theorem readReg_cmd : s.readReg .cmd = s.cmd := rfl
@[simp] theorem readReg_status : s.readReg .status = s.status := rfl
@[simp] theorem readReg_type : s.readReg .type = s.type := rfl
@[simp] theorem readReg_cls : s.readReg .cls = s.cls := rfl
@[simp] theorem readReg_method : s.readReg .method = s.method := rfl
@[simp] theorem readReg_msgLen : s.readReg .msgLen = s.msgLen := rfl
@[simp] theorem readReg_cookie : s.readReg .cookie = s.cookie := rfl
@[simp] theorem readReg_tid : s.readReg .tid = s.tid := rfl
@[simp] theorem readReg_attrPresent : s.readReg .attrPresent = s.attrPresent := rfl
@[simp] theorem readReg_attrType : s.readReg .attrType = s.attrType := rfl
@[simp] theorem readReg_attrLen : s.readReg .attrLen = s.attrLen := rfl
@[simp] theorem readReg_valCnt : s.readReg .valCnt = s.valCnt := rfl
@[simp] theorem readReg_ibufLen : s.readReg .ibufLen = s.ibufLen := rfl
@[simp] theorem readReg_obufLen : s.readReg .obufLen = s.obufLen := rfl
@[simp] theorem readReg_peerIp : s.readReg .peerIp = s.peerIp := rfl
@[simp] theorem readReg_peerPort : s.readReg .peerPort = s.peerPort := rfl
@[simp] theorem readReg_xmaOut : s.readReg .xmaOut = s.xmaOut := rfl

/-! ### writeReg: its own field, the other fields, and what is not a register -/

@[simp] theorem writeReg_cmd_self (v : BitVec Reg.cmd.width) : (s.writeReg .cmd v).cmd = v := rfl
@[simp] theorem writeReg_status_self (v : BitVec Reg.status.width) : (s.writeReg .status v).status = v := rfl
@[simp] theorem writeReg_type_self (v : BitVec Reg.type.width) : (s.writeReg .type v).type = v := rfl
@[simp] theorem writeReg_cls_self (v : BitVec Reg.cls.width) : (s.writeReg .cls v).cls = v := rfl
@[simp] theorem writeReg_method_self (v : BitVec Reg.method.width) : (s.writeReg .method v).method = v := rfl
@[simp] theorem writeReg_msgLen_self (v : BitVec Reg.msgLen.width) : (s.writeReg .msgLen v).msgLen = v := rfl
@[simp] theorem writeReg_cookie_self (v : BitVec Reg.cookie.width) : (s.writeReg .cookie v).cookie = v := rfl
@[simp] theorem writeReg_tid_self (v : BitVec Reg.tid.width) : (s.writeReg .tid v).tid = v := rfl
@[simp] theorem writeReg_attrPresent_self (v : BitVec Reg.attrPresent.width) : (s.writeReg .attrPresent v).attrPresent = v := rfl
@[simp] theorem writeReg_attrType_self (v : BitVec Reg.attrType.width) : (s.writeReg .attrType v).attrType = v := rfl
@[simp] theorem writeReg_attrLen_self (v : BitVec Reg.attrLen.width) : (s.writeReg .attrLen v).attrLen = v := rfl
@[simp] theorem writeReg_valCnt_self (v : BitVec Reg.valCnt.width) : (s.writeReg .valCnt v).valCnt = v := rfl
@[simp] theorem writeReg_ibufLen_self (v : BitVec Reg.ibufLen.width) : (s.writeReg .ibufLen v).ibufLen = v := rfl
@[simp] theorem writeReg_obufLen_self (v : BitVec Reg.obufLen.width) : (s.writeReg .obufLen v).obufLen = v := rfl
@[simp] theorem writeReg_peerIp_self (v : BitVec Reg.peerIp.width) : (s.writeReg .peerIp v).peerIp = v := rfl
@[simp] theorem writeReg_peerPort_self (v : BitVec Reg.peerPort.width) : (s.writeReg .peerPort v).peerPort = v := rfl
@[simp] theorem writeReg_xmaOut_self (v : BitVec Reg.xmaOut.width) : (s.writeReg .xmaOut v).xmaOut = v := rfl

@[simp] theorem writeReg_cmd_ne (r : Reg) (v : BitVec r.width) (h : r ≠ .cmd) : (s.writeReg r v).cmd = s.cmd := by
  cases r <;> first | rfl | exact absurd rfl h
@[simp] theorem writeReg_status_ne (r : Reg) (v : BitVec r.width) (h : r ≠ .status) : (s.writeReg r v).status = s.status := by
  cases r <;> first | rfl | exact absurd rfl h
@[simp] theorem writeReg_type_ne (r : Reg) (v : BitVec r.width) (h : r ≠ .type) : (s.writeReg r v).type = s.type := by
  cases r <;> first | rfl | exact absurd rfl h
@[simp] theorem writeReg_cls_ne (r : Reg) (v : BitVec r.width) (h : r ≠ .cls) : (s.writeReg r v).cls = s.cls := by
  cases r <;> first | rfl | exact absurd rfl h
@[simp] theorem writeReg_method_ne (r : Reg) (v : BitVec r.width) (h : r ≠ .method) : (s.writeReg r v).method = s.method := by
  cases r <;> first | rfl | exact absurd rfl h
@[simp] theorem writeReg_msgLen_ne (r : Reg) (v : BitVec r.width) (h : r ≠ .msgLen) : (s.writeReg r v).msgLen = s.msgLen := by
  cases r <;> first | rfl | exact absurd rfl h
@[simp] theorem writeReg_cookie_ne (r : Reg) (v : BitVec r.width) (h : r ≠ .cookie) : (s.writeReg r v).cookie = s.cookie := by
  cases r <;> first | rfl | exact absurd rfl h
@[simp] theorem writeReg_tid_ne (r : Reg) (v : BitVec r.width) (h : r ≠ .tid) : (s.writeReg r v).tid = s.tid := by
  cases r <;> first | rfl | exact absurd rfl h
@[simp] theorem writeReg_attrPresent_ne (r : Reg) (v : BitVec r.width) (h : r ≠ .attrPresent) : (s.writeReg r v).attrPresent = s.attrPresent := by
  cases r <;> first | rfl | exact absurd rfl h
@[simp] theorem writeReg_attrType_ne (r : Reg) (v : BitVec r.width) (h : r ≠ .attrType) : (s.writeReg r v).attrType = s.attrType := by
  cases r <;> first | rfl | exact absurd rfl h
@[simp] theorem writeReg_attrLen_ne (r : Reg) (v : BitVec r.width) (h : r ≠ .attrLen) : (s.writeReg r v).attrLen = s.attrLen := by
  cases r <;> first | rfl | exact absurd rfl h
@[simp] theorem writeReg_valCnt_ne (r : Reg) (v : BitVec r.width) (h : r ≠ .valCnt) : (s.writeReg r v).valCnt = s.valCnt := by
  cases r <;> first | rfl | exact absurd rfl h
@[simp] theorem writeReg_ibufLen_ne (r : Reg) (v : BitVec r.width) (h : r ≠ .ibufLen) : (s.writeReg r v).ibufLen = s.ibufLen := by
  cases r <;> first | rfl | exact absurd rfl h
@[simp] theorem writeReg_obufLen_ne (r : Reg) (v : BitVec r.width) (h : r ≠ .obufLen) : (s.writeReg r v).obufLen = s.obufLen := by
  cases r <;> first | rfl | exact absurd rfl h
@[simp] theorem writeReg_peerIp_ne (r : Reg) (v : BitVec r.width) (h : r ≠ .peerIp) : (s.writeReg r v).peerIp = s.peerIp := by
  cases r <;> first | rfl | exact absurd rfl h
@[simp] theorem writeReg_peerPort_ne (r : Reg) (v : BitVec r.width) (h : r ≠ .peerPort) : (s.writeReg r v).peerPort = s.peerPort := by
  cases r <;> first | rfl | exact absurd rfl h
@[simp] theorem writeReg_xmaOut_ne (r : Reg) (v : BitVec r.width) (h : r ≠ .xmaOut) : (s.writeReg r v).xmaOut = s.xmaOut := by
  cases r <;> first | rfl | exact absurd rfl h

@[simp] theorem writeReg_ibuf (r : Reg) (v : BitVec r.width) : (s.writeReg r v).ibuf = s.ibuf := by cases r <;> rfl
@[simp] theorem writeReg_val (r : Reg) (v : BitVec r.width) : (s.writeReg r v).val = s.val := by cases r <;> rfl
@[simp] theorem writeReg_obuf (r : Reg) (v : BitVec r.width) : (s.writeReg r v).obuf = s.obuf := by cases r <;> rfl
@[simp] theorem writeReg_cfg (r : Reg) (v : BitVec r.width) : (s.writeReg r v).cfg = s.cfg := by cases r <;> rfl
@[simp] theorem writeReg_epoch (r : Reg) (v : BitVec r.width) : (s.writeReg r v).epoch = s.epoch := by cases r <;> rfl
@[simp] theorem writeReg_host (r : Reg) (v : BitVec r.width) : (s.writeReg r v).host = s.host := by cases r <;> rfl

@[simp] theorem readReg_writeReg_self (r : Reg) (v : BitVec r.width) : (s.writeReg r v).readReg r = v := by
  cases r <;> rfl

theorem readReg_writeReg_ne (r q : Reg) (v : BitVec r.width) (h : q ≠ r) : (s.writeReg r v).readReg q = s.readReg q := by
  cases q <;> cases r <;> first | rfl | exact absurd rfl h

/-! ### setBuf -/

@[simp] theorem setBuf_cmd (sp : Space) (m : Memory) : (s.setBuf sp m).cmd = s.cmd := by cases sp <;> rfl
@[simp] theorem setBuf_status (sp : Space) (m : Memory) : (s.setBuf sp m).status = s.status := by cases sp <;> rfl
@[simp] theorem setBuf_type (sp : Space) (m : Memory) : (s.setBuf sp m).type = s.type := by cases sp <;> rfl
@[simp] theorem setBuf_cls (sp : Space) (m : Memory) : (s.setBuf sp m).cls = s.cls := by cases sp <;> rfl
@[simp] theorem setBuf_method (sp : Space) (m : Memory) : (s.setBuf sp m).method = s.method := by cases sp <;> rfl
@[simp] theorem setBuf_msgLen (sp : Space) (m : Memory) : (s.setBuf sp m).msgLen = s.msgLen := by cases sp <;> rfl
@[simp] theorem setBuf_cookie (sp : Space) (m : Memory) : (s.setBuf sp m).cookie = s.cookie := by cases sp <;> rfl
@[simp] theorem setBuf_tid (sp : Space) (m : Memory) : (s.setBuf sp m).tid = s.tid := by cases sp <;> rfl
@[simp] theorem setBuf_attrPresent (sp : Space) (m : Memory) : (s.setBuf sp m).attrPresent = s.attrPresent := by cases sp <;> rfl
@[simp] theorem setBuf_attrType (sp : Space) (m : Memory) : (s.setBuf sp m).attrType = s.attrType := by cases sp <;> rfl
@[simp] theorem setBuf_attrLen (sp : Space) (m : Memory) : (s.setBuf sp m).attrLen = s.attrLen := by cases sp <;> rfl
@[simp] theorem setBuf_valCnt (sp : Space) (m : Memory) : (s.setBuf sp m).valCnt = s.valCnt := by cases sp <;> rfl
@[simp] theorem setBuf_ibufLen (sp : Space) (m : Memory) : (s.setBuf sp m).ibufLen = s.ibufLen := by cases sp <;> rfl
@[simp] theorem setBuf_obufLen (sp : Space) (m : Memory) : (s.setBuf sp m).obufLen = s.obufLen := by cases sp <;> rfl
@[simp] theorem setBuf_peerIp (sp : Space) (m : Memory) : (s.setBuf sp m).peerIp = s.peerIp := by cases sp <;> rfl
@[simp] theorem setBuf_peerPort (sp : Space) (m : Memory) : (s.setBuf sp m).peerPort = s.peerPort := by cases sp <;> rfl
@[simp] theorem setBuf_xmaOut (sp : Space) (m : Memory) : (s.setBuf sp m).xmaOut = s.xmaOut := by cases sp <;> rfl
@[simp] theorem setBuf_cfg (sp : Space) (m : Memory) : (s.setBuf sp m).cfg = s.cfg := by cases sp <;> rfl
@[simp] theorem setBuf_epoch (sp : Space) (m : Memory) : (s.setBuf sp m).epoch = s.epoch := by cases sp <;> rfl
@[simp] theorem setBuf_host (sp : Space) (m : Memory) : (s.setBuf sp m).host = s.host := by cases sp <;> rfl

@[simp] theorem readReg_setBuf (sp : Space) (m : Memory) (q : Reg) : (s.setBuf sp m).readReg q = s.readReg q := by
  cases sp <;> cases q <;> rfl

@[simp] theorem buf_setBuf_self (sp : Space) (m : Memory) : (s.setBuf sp m).buf sp = m := by cases sp <;> rfl

@[simp] theorem buf_setBuf_ne (sp sp' : Space) (m : Memory) (h : sp' ≠ sp) : (s.setBuf sp m).buf sp' = s.buf sp' := by
  cases sp <;> cases sp' <;> first | rfl | exact absurd rfl h

@[simp] theorem buf_writeReg (sp : Space) (r : Reg) (v : BitVec r.width) : (s.writeReg r v).buf sp = s.buf sp := by
  cases sp <;> simp [State.buf]

@[simp] theorem sizeOf_writeReg (sp : Space) (r : Reg) (v : BitVec r.width) : (s.writeReg r v).sizeOf sp = s.sizeOf sp := by
  cases sp <;> simp [State.sizeOf, State.valMax]

@[simp] theorem sizeOf_setBuf (sp sp' : Space) (m : Memory) : (s.setBuf sp' m).sizeOf sp = s.sizeOf sp := by
  cases sp <;> simp [State.sizeOf, State.valMax]

/-! ### The host's fields: withRest, returned, load, withSender -/

@[simp] theorem withRest_cmd (p : List Stmt) : (s.withRest p).cmd = s.cmd := rfl
@[simp] theorem withRest_status (p : List Stmt) : (s.withRest p).status = s.status := rfl
@[simp] theorem withRest_type (p : List Stmt) : (s.withRest p).type = s.type := rfl
@[simp] theorem withRest_cls (p : List Stmt) : (s.withRest p).cls = s.cls := rfl
@[simp] theorem withRest_method (p : List Stmt) : (s.withRest p).method = s.method := rfl
@[simp] theorem withRest_msgLen (p : List Stmt) : (s.withRest p).msgLen = s.msgLen := rfl
@[simp] theorem withRest_cookie (p : List Stmt) : (s.withRest p).cookie = s.cookie := rfl
@[simp] theorem withRest_tid (p : List Stmt) : (s.withRest p).tid = s.tid := rfl
@[simp] theorem withRest_attrPresent (p : List Stmt) : (s.withRest p).attrPresent = s.attrPresent := rfl
@[simp] theorem withRest_attrType (p : List Stmt) : (s.withRest p).attrType = s.attrType := rfl
@[simp] theorem withRest_attrLen (p : List Stmt) : (s.withRest p).attrLen = s.attrLen := rfl
@[simp] theorem withRest_valCnt (p : List Stmt) : (s.withRest p).valCnt = s.valCnt := rfl
@[simp] theorem withRest_ibufLen (p : List Stmt) : (s.withRest p).ibufLen = s.ibufLen := rfl
@[simp] theorem withRest_obufLen (p : List Stmt) : (s.withRest p).obufLen = s.obufLen := rfl
@[simp] theorem withRest_peerIp (p : List Stmt) : (s.withRest p).peerIp = s.peerIp := rfl
@[simp] theorem withRest_peerPort (p : List Stmt) : (s.withRest p).peerPort = s.peerPort := rfl
@[simp] theorem withRest_xmaOut (p : List Stmt) : (s.withRest p).xmaOut = s.xmaOut := rfl
@[simp] theorem withRest_ibuf (p : List Stmt) : (s.withRest p).ibuf = s.ibuf := rfl
@[simp] theorem withRest_val (p : List Stmt) : (s.withRest p).val = s.val := rfl
@[simp] theorem withRest_obuf (p : List Stmt) : (s.withRest p).obuf = s.obuf := rfl
@[simp] theorem withRest_cfg (p : List Stmt) : (s.withRest p).cfg = s.cfg := rfl
@[simp] theorem withRest_epoch (p : List Stmt) : (s.withRest p).epoch = s.epoch := rfl
@[simp] theorem withRest_readReg (p : List Stmt) (q : Reg) : (s.withRest p).readReg q = s.readReg q := by cases q <;> rfl
@[simp] theorem withRest_buf (p : List Stmt) (sp : Space) : (s.withRest p).buf sp = s.buf sp := by cases sp <;> rfl
@[simp] theorem withRest_sizeOf (p : List Stmt) (sp : Space) : (s.withRest p).sizeOf sp = s.sizeOf sp := by cases sp <;> rfl

@[simp] theorem returned_cmd (v : Nat) : (s.returned v).cmd = s.cmd := rfl
@[simp] theorem returned_status (v : Nat) : (s.returned v).status = s.status := rfl
@[simp] theorem returned_type (v : Nat) : (s.returned v).type = s.type := rfl
@[simp] theorem returned_cls (v : Nat) : (s.returned v).cls = s.cls := rfl
@[simp] theorem returned_method (v : Nat) : (s.returned v).method = s.method := rfl
@[simp] theorem returned_msgLen (v : Nat) : (s.returned v).msgLen = s.msgLen := rfl
@[simp] theorem returned_cookie (v : Nat) : (s.returned v).cookie = s.cookie := rfl
@[simp] theorem returned_tid (v : Nat) : (s.returned v).tid = s.tid := rfl
@[simp] theorem returned_attrPresent (v : Nat) : (s.returned v).attrPresent = s.attrPresent := rfl
@[simp] theorem returned_attrType (v : Nat) : (s.returned v).attrType = s.attrType := rfl
@[simp] theorem returned_attrLen (v : Nat) : (s.returned v).attrLen = s.attrLen := rfl
@[simp] theorem returned_valCnt (v : Nat) : (s.returned v).valCnt = s.valCnt := rfl
@[simp] theorem returned_ibufLen (v : Nat) : (s.returned v).ibufLen = s.ibufLen := rfl
@[simp] theorem returned_obufLen (v : Nat) : (s.returned v).obufLen = s.obufLen := rfl
@[simp] theorem returned_peerIp (v : Nat) : (s.returned v).peerIp = s.peerIp := rfl
@[simp] theorem returned_peerPort (v : Nat) : (s.returned v).peerPort = s.peerPort := rfl
@[simp] theorem returned_xmaOut (v : Nat) : (s.returned v).xmaOut = s.xmaOut := rfl
@[simp] theorem returned_ibuf (v : Nat) : (s.returned v).ibuf = s.ibuf := rfl
@[simp] theorem returned_val (v : Nat) : (s.returned v).val = s.val := rfl
@[simp] theorem returned_obuf (v : Nat) : (s.returned v).obuf = s.obuf := rfl
@[simp] theorem returned_cfg (v : Nat) : (s.returned v).cfg = s.cfg := rfl
@[simp] theorem returned_epoch (v : Nat) : (s.returned v).epoch = s.epoch := rfl
@[simp] theorem returned_readReg (v : Nat) (q : Reg) : (s.returned v).readReg q = s.readReg q := by cases q <;> rfl
@[simp] theorem returned_buf (v : Nat) (sp : Space) : (s.returned v).buf sp = s.buf sp := by cases sp <;> rfl
@[simp] theorem returned_sizeOf (v : Nat) (sp : Space) : (s.returned v).sizeOf sp = s.sizeOf sp := by cases sp <;> rfl

@[simp] theorem load_cmd (p : List Stmt) : (s.load p).cmd = s.cmd := rfl
@[simp] theorem load_status (p : List Stmt) : (s.load p).status = s.status := rfl
@[simp] theorem load_type (p : List Stmt) : (s.load p).type = s.type := rfl
@[simp] theorem load_cls (p : List Stmt) : (s.load p).cls = s.cls := rfl
@[simp] theorem load_method (p : List Stmt) : (s.load p).method = s.method := rfl
@[simp] theorem load_msgLen (p : List Stmt) : (s.load p).msgLen = s.msgLen := rfl
@[simp] theorem load_cookie (p : List Stmt) : (s.load p).cookie = s.cookie := rfl
@[simp] theorem load_tid (p : List Stmt) : (s.load p).tid = s.tid := rfl
@[simp] theorem load_attrPresent (p : List Stmt) : (s.load p).attrPresent = s.attrPresent := rfl
@[simp] theorem load_attrType (p : List Stmt) : (s.load p).attrType = s.attrType := rfl
@[simp] theorem load_attrLen (p : List Stmt) : (s.load p).attrLen = s.attrLen := rfl
@[simp] theorem load_valCnt (p : List Stmt) : (s.load p).valCnt = s.valCnt := rfl
@[simp] theorem load_ibufLen (p : List Stmt) : (s.load p).ibufLen = s.ibufLen := rfl
@[simp] theorem load_obufLen (p : List Stmt) : (s.load p).obufLen = s.obufLen := rfl
@[simp] theorem load_peerIp (p : List Stmt) : (s.load p).peerIp = s.peerIp := rfl
@[simp] theorem load_peerPort (p : List Stmt) : (s.load p).peerPort = s.peerPort := rfl
@[simp] theorem load_xmaOut (p : List Stmt) : (s.load p).xmaOut = s.xmaOut := rfl
@[simp] theorem load_ibuf (p : List Stmt) : (s.load p).ibuf = s.ibuf := rfl
@[simp] theorem load_val (p : List Stmt) : (s.load p).val = s.val := rfl
@[simp] theorem load_obuf (p : List Stmt) : (s.load p).obuf = s.obuf := rfl
@[simp] theorem load_cfg (p : List Stmt) : (s.load p).cfg = s.cfg := rfl
@[simp] theorem load_epoch (p : List Stmt) : (s.load p).epoch = s.epoch := rfl
@[simp] theorem load_readReg (p : List Stmt) (q : Reg) : (s.load p).readReg q = s.readReg q := by cases q <;> rfl
@[simp] theorem load_buf (p : List Stmt) (sp : Space) : (s.load p).buf sp = s.buf sp := by cases sp <;> rfl
@[simp] theorem load_sizeOf (p : List Stmt) (sp : Space) : (s.load p).sizeOf sp = s.sizeOf sp := by cases sp <;> rfl

@[simp] theorem withRest_host (p : List Stmt) : (s.withRest p).host = { s.host with rest := p } := rfl
@[simp] theorem returned_host (v : Nat) : (s.returned v).host = { s.host with lastRead := some v } := rfl
@[simp] theorem load_host (p : List Stmt) : (s.load p).host = { s.host with prog := p, rest := p } := rfl

@[simp] theorem withSender_cmd (o : Option Peer) : (s.withSender o).cmd = s.cmd := rfl
@[simp] theorem withSender_status (o : Option Peer) : (s.withSender o).status = s.status := rfl
@[simp] theorem withSender_type (o : Option Peer) : (s.withSender o).type = s.type := rfl
@[simp] theorem withSender_cls (o : Option Peer) : (s.withSender o).cls = s.cls := rfl
@[simp] theorem withSender_method (o : Option Peer) : (s.withSender o).method = s.method := rfl
@[simp] theorem withSender_msgLen (o : Option Peer) : (s.withSender o).msgLen = s.msgLen := rfl
@[simp] theorem withSender_cookie (o : Option Peer) : (s.withSender o).cookie = s.cookie := rfl
@[simp] theorem withSender_tid (o : Option Peer) : (s.withSender o).tid = s.tid := rfl
@[simp] theorem withSender_attrPresent (o : Option Peer) : (s.withSender o).attrPresent = s.attrPresent := rfl
@[simp] theorem withSender_attrType (o : Option Peer) : (s.withSender o).attrType = s.attrType := rfl
@[simp] theorem withSender_attrLen (o : Option Peer) : (s.withSender o).attrLen = s.attrLen := rfl
@[simp] theorem withSender_valCnt (o : Option Peer) : (s.withSender o).valCnt = s.valCnt := rfl
@[simp] theorem withSender_ibufLen (o : Option Peer) : (s.withSender o).ibufLen = s.ibufLen := rfl
@[simp] theorem withSender_obufLen (o : Option Peer) : (s.withSender o).obufLen = s.obufLen := rfl
@[simp] theorem withSender_peerIp (o : Option Peer) : (s.withSender o).peerIp = s.peerIp := rfl
@[simp] theorem withSender_peerPort (o : Option Peer) : (s.withSender o).peerPort = s.peerPort := rfl
@[simp] theorem withSender_xmaOut (o : Option Peer) : (s.withSender o).xmaOut = s.xmaOut := rfl
@[simp] theorem withSender_ibuf (o : Option Peer) : (s.withSender o).ibuf = s.ibuf := rfl
@[simp] theorem withSender_val (o : Option Peer) : (s.withSender o).val = s.val := rfl
@[simp] theorem withSender_obuf (o : Option Peer) : (s.withSender o).obuf = s.obuf := rfl
@[simp] theorem withSender_cfg (o : Option Peer) : (s.withSender o).cfg = s.cfg := rfl
@[simp] theorem withSender_epoch (o : Option Peer) : (s.withSender o).epoch = s.epoch := rfl
@[simp] theorem withSender_readReg (o : Option Peer) (q : Reg) : (s.withSender o).readReg q = s.readReg q := by cases q <;> rfl
@[simp] theorem withSender_buf (o : Option Peer) (sp : Space) : (s.withSender o).buf sp = s.buf sp := by cases sp <;> rfl
@[simp] theorem withSender_sizeOf (o : Option Peer) (sp : Space) : (s.withSender o).sizeOf sp = s.sizeOf sp := by cases sp <;> rfl
@[simp] theorem withSender_host (o : Option Peer) : (s.withSender o).host = { s.host with sender := o } := rfl

theorem withRest_withRest (p q : List Stmt) : (s.withRest p).withRest q = s.withRest q := rfl

theorem withRest_self : s.withRest s.host.rest = s := rfl

end Sys2Proof.Machine
end

