-- ==== Sys2Proof/Laws/Ops.lean ====
section
/-! SUPPORT. What each shared operation does, said once: bytes of a space, the two ways a command ends, byte order, reset. -/

namespace Sys2Proof.Machine

/-! ### Sizes -/

theorem valMax_eq (s : State) : s.valMax = s.cfg.rxBufSize - 24 := rfl

@[simp] theorem sizeOf_ibuf (s : State) : s.sizeOf .ibuf = s.cfg.rxBufSize := rfl

@[simp] theorem sizeOf_val (s : State) : s.sizeOf .val = s.cfg.rxBufSize - 24 := rfl

@[simp] theorem sizeOf_obuf (s : State) : s.sizeOf .obuf = s.cfg.rxBufSize := rfl

/-! ### Bytes -/

@[simp] theorem byte_writeReg (s : State) (r : Reg) (v : BitVec r.width) (sp : Space) (i : Nat) :
    (s.writeReg r v).byte sp i = s.byte sp i := by simp [State.byte]

@[simp] theorem byte_withRest (s : State) (p : List Stmt) (sp : Space) (i : Nat) :
    (s.withRest p).byte sp i = s.byte sp i := by simp [State.byte]

@[simp] theorem byte_returned (s : State) (v : Nat) (sp : Space) (i : Nat) :
    (s.returned v).byte sp i = s.byte sp i := by simp [State.byte]

@[simp] theorem byte_load (s : State) (p : List Stmt) (sp : Space) (i : Nat) :
    (s.load p).byte sp i = s.byte sp i := by simp [State.byte]

@[simp] theorem byte_withSender (s : State) (o : Option Peer) (sp : Space) (i : Nat) :
    (s.withSender o).byte sp i = s.byte sp i := by simp [State.byte]

/-- The bytes after MemWrite: the written ones, and every other byte of every space as before. -/
theorem byte_memWrite (s : State) (sp sp' : Space) (a i : Nat) (bs : List Byte) :
    (s.memWrite sp a bs).byte sp' i =
      if sp' = sp ∧ a ≤ i ∧ i < a + bs.length then bytesOf bs (i - a) else s.byte sp' i := by
  by_cases hsp : sp' = sp
  · subst hsp
    by_cases h : a ≤ i ∧ i < a + bs.length
    · have hl : i - a < bs.length := by omega
      simp [State.byte, State.memWrite, read?_writeBytes, h, bytesOf, List.getD_eq_getElem?_getD, hl]
    · have h' : ¬ (sp' = sp' ∧ a ≤ i ∧ i < a + bs.length) := fun e => h e.2
      rw [if_neg h']
      simp only [State.byte, State.memWrite, buf_setBuf_self, read?_writeBytes, if_neg h, setBuf_epoch]
  · have h' : ¬ (sp' = sp ∧ a ≤ i ∧ i < a + bs.length) := fun e => hsp e.1
    rw [if_neg h']
    simp [State.byte, State.memWrite, hsp]

@[simp] theorem readReg_memWrite (s : State) (sp : Space) (a : Nat) (bs : List Byte) (r : Reg) :
    (s.memWrite sp a bs).readReg r = s.readReg r := by simp [State.memWrite]

@[simp] theorem memWrite_cmd (s : State) (sp : Space) (a : Nat) (bs : List Byte) : (s.memWrite sp a bs).cmd = s.cmd := by
  simp [State.memWrite]
@[simp] theorem memWrite_status (s : State) (sp : Space) (a : Nat) (bs : List Byte) : (s.memWrite sp a bs).status = s.status := by
  simp [State.memWrite]
@[simp] theorem memWrite_type (s : State) (sp : Space) (a : Nat) (bs : List Byte) : (s.memWrite sp a bs).type = s.type := by
  simp [State.memWrite]
@[simp] theorem memWrite_cls (s : State) (sp : Space) (a : Nat) (bs : List Byte) : (s.memWrite sp a bs).cls = s.cls := by
  simp [State.memWrite]
@[simp] theorem memWrite_method (s : State) (sp : Space) (a : Nat) (bs : List Byte) : (s.memWrite sp a bs).method = s.method := by
  simp [State.memWrite]
@[simp] theorem memWrite_msgLen (s : State) (sp : Space) (a : Nat) (bs : List Byte) : (s.memWrite sp a bs).msgLen = s.msgLen := by
  simp [State.memWrite]
@[simp] theorem memWrite_cookie (s : State) (sp : Space) (a : Nat) (bs : List Byte) : (s.memWrite sp a bs).cookie = s.cookie := by
  simp [State.memWrite]
@[simp] theorem memWrite_tid (s : State) (sp : Space) (a : Nat) (bs : List Byte) : (s.memWrite sp a bs).tid = s.tid := by
  simp [State.memWrite]
@[simp] theorem memWrite_attrPresent (s : State) (sp : Space) (a : Nat) (bs : List Byte) : (s.memWrite sp a bs).attrPresent = s.attrPresent := by
  simp [State.memWrite]
@[simp] theorem memWrite_attrType (s : State) (sp : Space) (a : Nat) (bs : List Byte) : (s.memWrite sp a bs).attrType = s.attrType := by
  simp [State.memWrite]
@[simp] theorem memWrite_attrLen (s : State) (sp : Space) (a : Nat) (bs : List Byte) : (s.memWrite sp a bs).attrLen = s.attrLen := by
  simp [State.memWrite]
@[simp] theorem memWrite_valCnt (s : State) (sp : Space) (a : Nat) (bs : List Byte) : (s.memWrite sp a bs).valCnt = s.valCnt := by
  simp [State.memWrite]
@[simp] theorem memWrite_ibufLen (s : State) (sp : Space) (a : Nat) (bs : List Byte) : (s.memWrite sp a bs).ibufLen = s.ibufLen := by
  simp [State.memWrite]
@[simp] theorem memWrite_obufLen (s : State) (sp : Space) (a : Nat) (bs : List Byte) : (s.memWrite sp a bs).obufLen = s.obufLen := by
  simp [State.memWrite]
@[simp] theorem memWrite_peerIp (s : State) (sp : Space) (a : Nat) (bs : List Byte) : (s.memWrite sp a bs).peerIp = s.peerIp := by
  simp [State.memWrite]
@[simp] theorem memWrite_peerPort (s : State) (sp : Space) (a : Nat) (bs : List Byte) : (s.memWrite sp a bs).peerPort = s.peerPort := by
  simp [State.memWrite]
@[simp] theorem memWrite_xmaOut (s : State) (sp : Space) (a : Nat) (bs : List Byte) : (s.memWrite sp a bs).xmaOut = s.xmaOut := by
  simp [State.memWrite]

@[simp] theorem memWrite_cfg (s : State) (sp : Space) (a : Nat) (bs : List Byte) : (s.memWrite sp a bs).cfg = s.cfg := by
  simp [State.memWrite]

@[simp] theorem memWrite_epoch (s : State) (sp : Space) (a : Nat) (bs : List Byte) :
    (s.memWrite sp a bs).epoch = s.epoch := by simp [State.memWrite]

@[simp] theorem memWrite_host (s : State) (sp : Space) (a : Nat) (bs : List Byte) :
    (s.memWrite sp a bs).host = s.host := by simp [State.memWrite]

/-- A byte sequence written within a space keeps every buffer's canonical form and size. -/
theorem bufOk_memWrite (s : State) (sp sp' : Space) (a : Nat) (bs : List Byte) (ha : a + bs.length ≤ s.sizeOf sp)
    (h : BufOk s sp') : BufOk (s.memWrite sp a bs) sp' := by
  by_cases hsp : sp' = sp
  · subst hsp
    constructor
    · simpa [State.memWrite] using wf_writeBytes bs _ a h.1
    · simpa [State.memWrite] using within_writeBytes _ bs _ a ha h.2
  · simpa [BufOk, State.memWrite, hsp] using h

theorem bufOk_writeReg (s : State) (sp : Space) (r : Reg) (v : BitVec r.width) (h : BufOk s sp) :
    BufOk (s.writeReg r v) sp := by simpa [BufOk] using h

@[simp] theorem length_slice (B : Nat → Byte) (n : Nat) : ∀ a, (slice B a n).length = n := by
  induction n with
  | zero => intro a; rfl
  | succ n ih => intro a; simp [slice, ih]

theorem getElem?_slice (B : Nat → Byte) (n : Nat) : ∀ a k, (slice B a n)[k]? = if k < n then some (B (a + k)) else none := by
  induction n with
  | zero => intro a k; simp [slice]
  | succ n ih =>
    intro a k
    cases k with
    | zero => simp [slice]
    | succ k =>
      have : a + 1 + k = a + (k + 1) := by omega
      simp [slice, ih, this]

/-- A slice read back by index. -/
theorem bytesOf_slice (B : Nat → Byte) (a n k : Nat) (h : k < n) : bytesOf (slice B a n) k = B (a + k) := by
  rw [bytesOf, List.getD_eq_getElem?_getD, getElem?_slice, if_pos h]
  rfl

/-- Slices of sequences that agree on the range agree. -/
theorem slice_congr (B C : Nat → Byte) (n : Nat) : ∀ a, (∀ k, k < n → B (a + k) = C (a + k)) → slice B a n = slice C a n := by
  induction n with
  | zero => intro a _; rfl
  | succ n ih =>
    intro a h
    have h0 := h 0 (by omega)
    have h1 : slice B (a + 1) n = slice C (a + 1) n :=
      ih (a + 1) (fun k hk => by have := h (k + 1) (by omega); rwa [show a + 1 + k = a + (k + 1) by omega])
    simp only [slice, h1, Nat.add_zero] at h0 ⊢
    rw [h0]

theorem bytesOf_append_left (as bs : List Byte) (k : Nat) (h : k < as.length) : bytesOf (as ++ bs) k = bytesOf as k := by
  simp [bytesOf, List.getD_eq_getElem?_getD, List.getElem?_append_left h]

theorem bytesOf_append_right (as bs : List Byte) (k : Nat) : bytesOf (as ++ bs) (as.length + k) = bytesOf bs k := by
  rw [bytesOf, bytesOf, List.getD_eq_getElem?_getD, List.getD_eq_getElem?_getD, List.getElem?_append_right (by omega),
    Nat.add_sub_cancel_left]

/-! ### The two ways a command ends -/

@[simp] theorem raiseError_eq (e : CmdError) (o : BitVec 3) (s : State) :
    raiseError e o s = .next { s with status := statusError e o } := rfl

@[simp] theorem completeOk_eq (o : BitVec 3) (s : State) : completeOk o s = .next { s with status := statusOk o } := rfl

/-- An error is all or nothing. -/
theorem onlyStatus_setStatus (s : State) (v : BitVec 16) : OnlyStatus v s { s with status := v } := by
  refine ⟨rfl, ?_, fun sp i => by cases sp <;> rfl, rfl, rfl, rfl⟩
  intro r hr
  cases r <;> first | rfl | exact absurd (List.mem_singleton.2 rfl) hr

theorem statusWord_fields (err : BitVec 1) (c : BitVec 4) (o : BitVec 3) :
    statusDone (statusWord err c o) = 1 ∧ statusErr (statusWord err c o) = err ∧
      statusEcode (statusWord err c o) = c ∧ statusLastOp (statusWord err c o) = o := by
  revert err c o; decide

@[simp] theorem statusDone_word (err : BitVec 1) (c : BitVec 4) (o : BitVec 3) : statusDone (statusWord err c o) = 1 :=
  (statusWord_fields err c o).1

@[simp] theorem statusErr_word (err : BitVec 1) (c : BitVec 4) (o : BitVec 3) : statusErr (statusWord err c o) = err :=
  (statusWord_fields err c o).2.1

@[simp] theorem statusEcode_word (err : BitVec 1) (c : BitVec 4) (o : BitVec 3) : statusEcode (statusWord err c o) = c :=
  (statusWord_fields err c o).2.2.1

@[simp] theorem statusLastOp_word (err : BitVec 1) (c : BitVec 4) (o : BitVec 3) : statusLastOp (statusWord err c o) = o :=
  (statusWord_fields err c o).2.2.2

/-! ### Byte order -/

@[simp] theorem length_bytes16 (v : BitVec 16) : (bytes16 v).length = 2 := rfl
@[simp] theorem length_bytes32 (v : BitVec 32) : (bytes32 v).length = 4 := rfl
@[simp] theorem length_bytes96 (v : BitVec 96) : (bytes96 v).length = 12 := rfl

/-- The high and the low byte of a 16-bit value put together again. -/
theorem be16_split (v : BitVec 16) : be16 (v.extractLsb' 8 8) (v.extractLsb' 0 8) = v := by
  apply BitVec.eq_of_getLsbD_eq
  intro i hi
  simp only [be16, BitVec.getLsbD_append, BitVec.getLsbD_extractLsb']
  by_cases h : i < 8
  · simp [h]
  · have h1 : i - 8 < 8 := by omega
    have h2 : 8 + (i - 8) = i := by omega
    simp [h, h1, h2]

/-- The four bytes of a 32-bit value put together again. -/
theorem be32_split (v : BitVec 32) :
    be32 (v.extractLsb' 24 8) (v.extractLsb' 16 8) (v.extractLsb' 8 8) (v.extractLsb' 0 8) = v := by
  apply BitVec.eq_of_getLsbD_eq
  intro i hi
  simp only [be32, BitVec.getLsbD_append, BitVec.getLsbD_extractLsb']
  by_cases h : i < 8
  · simp [h]
  · by_cases h' : i < 16
    · have h1 : i - 8 < 8 := by omega
      have h2 : 8 + (i - 8) = i := by omega
      simp [h, h1, h2]
    · by_cases h'' : i < 24
      · have h1 : ¬ i - 8 < 8 := by omega
        have h3 : i - 8 - 8 < 8 := by omega
        have h2 : 16 + (i - 8 - 8) = i := by omega
        simp [h, h1, h2, h3]
      · have h1 : ¬ i - 8 < 8 := by omega
        have h3 : ¬ i - 8 - 8 < 8 := by omega
        have h4 : i - 8 - 8 - 8 < 8 := by omega
        have h2 : 24 + (i - 8 - 8 - 8) = i := by omega
        simp [h, h1, h2, h3, h4]

/-- The three 32-bit parts of a 96-bit value put together again. -/
theorem be96_split (v : BitVec 96) : v.extractLsb' 64 32 ++ v.extractLsb' 32 32 ++ v.extractLsb' 0 32 = v := by
  apply BitVec.eq_of_getLsbD_eq
  intro i hi
  simp only [BitVec.getLsbD_append, BitVec.getLsbD_extractLsb']
  by_cases h : i < 32
  · simp [h]
  · by_cases h' : i < 64
    · have h1 : i - 32 < 32 := by omega
      have h2 : 32 + (i - 32) = i := by omega
      simp [h, h1, h2]
    · have h1 : ¬ i - 32 < 32 := by omega
      have h3 : i - 32 - 32 < 32 := by omega
      have h2 : 64 + (i - 32 - 32) = i := by omega
      simp [h, h1, h2, h3]

/-- Fields of sequences that agree on their bytes agree. -/
theorem be16At_congr (B C : Nat → Byte) (a : Nat) (h : ∀ k, k < 2 → B (a + k) = C (a + k)) : be16At B a = be16At C a := by
  have h0 := h 0 (by omega); have h1 := h 1 (by omega)
  simp only [Nat.add_zero] at h0
  simp only [be16At, h0, h1]

theorem be32At_congr (B C : Nat → Byte) (a : Nat) (h : ∀ k, k < 4 → B (a + k) = C (a + k)) : be32At B a = be32At C a := by
  have h0 := h 0 (by omega); have h1 := h 1 (by omega); have h2 := h 2 (by omega); have h3 := h 3 (by omega)
  simp only [Nat.add_zero] at h0
  simp only [be32At, h0, h1, h2, h3]

theorem be96At_congr (B C : Nat → Byte) (a : Nat) (h : ∀ k, k < 12 → B (a + k) = C (a + k)) : be96At B a = be96At C a := by
  have h1 : ∀ k, k < 4 → B (a + 4 + k) = C (a + 4 + k) := fun k hk => by
    have := h (4 + k) (by omega); rwa [← Nat.add_assoc] at this
  have h2 : ∀ k, k < 4 → B (a + 8 + k) = C (a + 8 + k) := fun k hk => by
    have := h (8 + k) (by omega); rwa [← Nat.add_assoc] at this
  rw [be96At, be96At, be32At_congr B C a (fun k hk => h k (by omega)), be32At_congr B C (a + 4) h1,
    be32At_congr B C (a + 8) h2]

/-! ### Reset -/

@[simp] theorem applyReset_readReg (s : State) (r : Reg) : s.applyReset.readReg r = State.reset.readReg r := by
  cases r <;> rfl

@[simp] theorem applyReset_buf (s : State) (sp : Space) : s.applyReset.buf sp = [] := by cases sp <;> rfl

@[simp] theorem applyReset_cfg (s : State) : s.applyReset.cfg = s.cfg := rfl
@[simp] theorem applyReset_epoch (s : State) : s.applyReset.epoch = s.epoch + 1 := rfl
@[simp] theorem applyReset_host (s : State) : s.applyReset.host = s.host := rfl

end Sys2Proof.Machine
end

