-- ==== Sys2Proof/Laws/Codec.lean ====
section
/-! SUPPORT. What the codecs' functions and the updates they share can do: when they succeed, what they give, what they leave alone. -/

namespace Sys2Proof.Machine

theorem knownMethod_iff (m : BitVec 12) :
    knownMethod m = true ↔ m = 1 ∨ m = 3 ∨ m = 4 ∨ m = 6 ∨ m = 7 ∨ m = 8 ∨ m = 9 := by
  simp [knownMethod, knownMethods, MsgMethod.code]

theorem typeEncodeF_known (c : BitVec 2) (m : BitVec 12) (h : knownMethod m = true) : typeEncodeF c m = .ok (typeField c m) := by
  simp [typeEncodeF, h]

theorem typeEncodeF_unknown (c : BitVec 2) (m : BitVec 12) (h : knownMethod m = false) :
    typeEncodeF c m = .error .encMethodUnknown := by simp [typeEncodeF, h]

/-- A type field decodes to (c, m) exactly when its reserved bits are 0, its fields are c and m, and m is known. -/
theorem typeDecodeF_ok_iff (t : BitVec 16) (c : BitVec 2) (m : BitVec 12) :
    typeDecodeF t = .ok (c, m) ↔
      t.extractLsb' 14 2 = 0 ∧ typeClass t = c ∧ typeMethod t = m ∧ knownMethod m = true := by
  unfold typeDecodeF
  split
  · rename_i h; simp only [reduceCtorEq, false_iff, not_and]; exact fun h' => absurd h' h
  · rename_i h
    simp only [ne_eq, not_not] at h
    split
    · rename_i hk; simp only [Except.ok.injEq, Prod.mk.injEq, h, true_and]
      constructor
      · rintro ⟨rfl, rfl⟩; exact ⟨rfl, rfl, hk⟩
      · rintro ⟨rfl, rfl, _⟩; exact ⟨rfl, rfl⟩
    · rename_i hk; simp only [reduceCtorEq, false_iff, not_and]
      rintro _ _ rfl; exact hk

/-- The ways a type field fails to decode: its reserved bits first, then its method. -/
theorem typeDecodeF_error_iff (t : BitVec 16) (e : CmdError) :
    typeDecodeF t = .error e ↔
      (t.extractLsb' 14 2 ≠ 0 ∧ e = .fmtTypeReserved) ∨
        (t.extractLsb' 14 2 = 0 ∧ knownMethod (typeMethod t) = false ∧ e = .fmtMethodUnknown) := by
  unfold typeDecodeF
  by_cases h : t.extractLsb' 14 2 = 0
  · rw [if_neg (not_not.2 h)]
    cases hk : knownMethod (typeMethod t)
    · simp only [h, Bool.false_eq_true, if_false, Except.error.injEq, ne_eq, not_true_eq_false, false_and, true_and, false_or]
      exact eq_comm
    · simp only [h, if_true, reduceCtorEq, Bool.true_eq_false, ne_eq, not_true_eq_false, false_and, and_false, or_self]
  · rw [if_pos h]
    simp only [Except.error.injEq, ne_eq, h, not_false_eq_true, true_and, false_and, or_false]
    exact eq_comm

/-- The twenty bytes of a header. -/
def headerBytes (t len : BitVec 16) (k : BitVec 32) (tid : Tid) : List Byte :=
  bytes16 t ++ bytes16 len ++ bytes32 k ++ bytes96 tid

@[simp] theorem length_headerBytes (t len : BitVec 16) (k : BitVec 32) (tid : Tid) : (headerBytes t len k tid).length = 20 := rfl

theorem headerEncodeF_known (c : BitVec 2) (m : BitVec 12) (len : BitVec 16) (k : BitVec 32) (tid : Tid)
    (h : knownMethod m = true) : headerEncodeF c m len k tid = .ok (headerBytes (typeField c m) len k tid) := by
  simp [headerEncodeF, typeEncodeF_known c m h, headerBytes]

theorem headerEncodeF_unknown (c : BitVec 2) (m : BitVec 12) (len : BitVec 16) (k : BitVec 32) (tid : Tid)
    (h : knownMethod m = false) : headerEncodeF c m len k tid = .error .encMethodUnknown := by
  simp [headerEncodeF, typeEncodeF_unknown c m h]

/-- The fields read back from a header's bytes, whatever follows them. -/
theorem be16At_headerBytes_type (t len : BitVec 16) (k : BitVec 32) (tid : Tid) (bs : List Byte) :
    be16At (bytesOf (headerBytes t len k tid ++ bs)) 0 = t := be16_split t

theorem be16At_headerBytes_len (t len : BitVec 16) (k : BitVec 32) (tid : Tid) (bs : List Byte) :
    be16At (bytesOf (headerBytes t len k tid ++ bs)) 2 = len := be16_split len

theorem be32At_headerBytes_cookie (t len : BitVec 16) (k : BitVec 32) (tid : Tid) (bs : List Byte) :
    be32At (bytesOf (headerBytes t len k tid ++ bs)) 4 = k := be32_split k

theorem be96At_headerBytes_tid (t len : BitVec 16) (k : BitVec 32) (tid : Tid) (bs : List Byte) :
    be96At (bytesOf (headerBytes t len k tid ++ bs)) 8 = tid := by
  have h1 : be32At (bytesOf (headerBytes t len k tid ++ bs)) 8 = tid.extractLsb' 64 32 := be32_split _
  have h2 : be32At (bytesOf (headerBytes t len k tid ++ bs)) 12 = tid.extractLsb' 32 32 := be32_split _
  have h3 : be32At (bytesOf (headerBytes t len k tid ++ bs)) 16 = tid.extractLsb' 0 32 := be32_split _
  rw [be96At, h1, h2, h3, be96_split]

/-- A header decodes when it is long enough, its type field decodes and its cookie is the constant, and only then. -/
theorem headerDecodeF_ok_iff (B : Nat → Byte) (n : Nat) (h : Header) :
    headerDecodeF B n = .ok h ↔
      20 ≤ n ∧ typeDecodeF (be16At B 0) = .ok (h.cls, h.method) ∧ be32At B 4 = magicCookie ∧
        h.type = be16At B 0 ∧ h.msgLen = be16At B 2 ∧ h.cookie = be32At B 4 ∧ h.tid = be96At B 8 := by
  obtain ⟨ht, hc, hm, hl, hk, hi⟩ := h
  unfold headerDecodeF hdrLen
  by_cases hn : n < 20
  · have : ¬ 20 ≤ n := by omega
    simp [hn, this]
  · have hn' : 20 ≤ n := by omega
    cases hd : typeDecodeF (be16At B 0) with
    | error e => simp [hn]
    | ok p =>
      obtain ⟨c, m⟩ := p
      by_cases hcookie : be32At B 4 = magicCookie
      · simp only [hn, if_false, cookieOk, hcookie, beq_self_eq_true, if_true, Except.ok.injEq, Header.mk.injEq,
          Prod.mk.injEq, hn', true_and]
        constructor
        · rintro ⟨rfl, rfl, rfl, rfl, rfl, rfl⟩; exact ⟨⟨rfl, rfl⟩, rfl, rfl, rfl, rfl⟩
        · rintro ⟨⟨rfl, rfl⟩, rfl, rfl, rfl, rfl⟩; exact ⟨rfl, rfl, rfl, rfl, rfl, rfl⟩
      · simp [hn, cookieOk, hcookie]

/-- A header's decoding depends on its first twenty bytes only. -/
theorem headerDecodeF_congr (B C : Nat → Byte) (n : Nat) (h : ∀ k, k < 20 → B k = C k) : headerDecodeF B n = headerDecodeF C n := by
  have hs : ∀ a w, a + w ≤ 20 → ∀ k, k < w → B (a + k) = C (a + k) := fun a w hw k hk => h (a + k) (by omega)
  unfold headerDecodeF
  rw [be16At_congr B C 0 (hs 0 2 (by omega)), be16At_congr B C 2 (hs 2 2 (by omega)), be32At_congr B C 4 (hs 4 4 (by omega)),
    be96At_congr B C 8 (hs 8 12 (by omega))]

/-- The errors of the header decoder. -/
theorem headerDecodeF_error_mem (B : Nat → Byte) (n : Nat) (e : CmdError) (h : headerDecodeF B n = .error e) :
    e ∈ [CmdError.fmtHdrTrunc, .fmtTypeReserved, .fmtMethodUnknown, .fmtCookie] := by
  unfold headerDecodeF at h
  split at h
  · cases h; simp
  · split at h
    · rename_i e' he
      cases h
      rcases (typeDecodeF_error_iff _ _).1 he with ⟨_, rfl⟩ | ⟨_, _, rfl⟩ <;> simp
    · split at h
      · cases h
      · cases h; simp

/-! ### The updates the commands share -/

/-- What an encoder's output update does: OBUF_LEN, the written bytes, and nothing else. -/
theorem writeOutput_spec (s : State) (bs : List Byte) :
    (s.writeOutput bs).obufLen = BitVec.ofNat 16 bs.length ∧
      (∀ r, r ≠ .obufLen → (s.writeOutput bs).readReg r = s.readReg r) ∧
      (∀ i, i < bs.length → (s.writeOutput bs).byte .obuf i = bytesOf bs i) ∧
      (∀ i, bs.length ≤ i → (s.writeOutput bs).byte .obuf i = s.byte .obuf i) ∧
      (∀ sp i, sp ≠ .obuf → (s.writeOutput bs).byte sp i = s.byte sp i) ∧ SameOutside s (s.writeOutput bs) := by
  refine ⟨?_, ?_, ?_, ?_, ?_, ?_, ?_, ?_⟩
  · simp [State.writeOutput]
  · intro r hr; simp [State.writeOutput, readReg_writeReg_ne _ _ _ _ hr]
  · intro i hi; simp [State.writeOutput, byte_memWrite, hi]
  · intro i hi; have : ¬ i < bs.length := by omega
    simp [State.writeOutput, byte_memWrite, this]
  · intro sp i hsp; simp [State.writeOutput, byte_memWrite, hsp]
  all_goals simp [State.writeOutput]

@[simp] theorem writeOutput_cmd (s : State) (bs : List Byte) : (s.writeOutput bs).cmd = s.cmd := by simp [State.writeOutput]

@[simp] theorem writeOutput_status (s : State) (bs : List Byte) : (s.writeOutput bs).status = s.status := by
  simp [State.writeOutput]

/-- What the header update does: six registers, and nothing else. -/
theorem writeHeader_eq (s : State) (h : Header) :
    s.writeHeader h =
      { s with type := h.type, cls := h.cls, method := h.method, msgLen := h.msgLen, cookie := h.cookie, tid := h.tid } := rfl

@[simp] theorem byte_writeHeader (s : State) (h : Header) (sp : Space) (i : Nat) : (s.writeHeader h).byte sp i = s.byte sp i := by
  simp [State.writeHeader]

@[simp] theorem writeHeader_cmd (s : State) (h : Header) : (s.writeHeader h).cmd = s.cmd := by simp [State.writeHeader]

@[simp] theorem writeAttr_cmd (s : State) (r : Message) : (s.writeAttr r).cmd = s.cmd := by simp [State.writeAttr]

/-- What the attribute update does: four registers, the value's bytes, and nothing else. -/
theorem writeAttr_spec (s : State) (r : Message) :
    (s.writeAttr r).attrPresent = r.present ∧ (s.writeAttr r).attrType = r.atype ∧ (s.writeAttr r).attrLen = r.alen ∧
      (s.writeAttr r).valCnt = BitVec.ofNat 16 r.value.length ∧
      (∀ q, q ∉ [Reg.attrPresent, .attrType, .attrLen, .valCnt] → (s.writeAttr r).readReg q = s.readReg q) ∧
      (∀ i, i < r.value.length → (s.writeAttr r).byte .val i = bytesOf r.value i) ∧
      (∀ i, r.value.length ≤ i → (s.writeAttr r).byte .val i = s.byte .val i) ∧
      (∀ sp i, sp ≠ .val → (s.writeAttr r).byte sp i = s.byte sp i) ∧ SameOutside s (s.writeAttr r) := by
  refine ⟨?_, ?_, ?_, ?_, ?_, ?_, ?_, ?_, ?_, ?_, ?_⟩
  case refine_5 =>
    intro q hq
    simp only [List.mem_cons, List.not_mem_nil, or_false, not_or] at hq
    simp [State.writeAttr, readReg_writeReg_ne _ _ _ _ hq.1, readReg_writeReg_ne _ _ _ _ hq.2.1,
      readReg_writeReg_ne _ _ _ _ hq.2.2.1, readReg_writeReg_ne _ _ _ _ hq.2.2.2]
  case refine_6 => intro i hi; simp [State.writeAttr, byte_memWrite, hi]
  case refine_7 =>
    intro i hi; have : ¬ i < r.value.length := by omega
    simp [State.writeAttr, byte_memWrite, this]
  case refine_8 => intro sp i hsp; simp [State.writeAttr, byte_memWrite, hsp]
  all_goals simp [State.writeAttr, State.memWrite]

end Sys2Proof.Machine
end

