-- ==== Sys2Proof/Laws/Host.lean ====
section
/-! SUPPORT. What one step does, by the host's next statement. -/

namespace Sys2Proof.Machine

theorem step_idle (s : State) (h : s.host.rest = []) : step s = runIdle s := by
  unfold step; rw [h]

theorem step_stmt (s : State) (st : Stmt) (rest : List Stmt) (h : s.host.rest = st :: rest) :
    step s = runStmt st (s.withRest rest) := by
  unfold step; rw [h]

@[simp] theorem withFetchWord_rest (s : State) (nbits w : Nat) :
    (s.withFetchWord nbits w).host.rest = .issue (BitVec.ofNat 8 (w % 2 ^ nbits)) :: s.host.rest := rfl

/-- The phase is read from the statements left. -/
theorem phase_of_rest (s : State) (rest : List Stmt) (h : s.host.rest = rest) : s.phase = phaseOf rest := by rw [State.phase, h]

/-- Idle is nothing left, or a receive next, or END next. -/
theorem phaseOf_eq_idle_iff (p : List Stmt) :
    phaseOf p = .idle ↔ p = [] ∨ (∃ bs sender rest, p = .rx bs sender :: rest) ∨ ∃ rest, p = .stop :: rest := by
  cases p with
  | nil => simp [phaseOf]
  | cons st rest => cases st <;> simp [phaseOf]

/-- The phase after other statements are put in place is theirs. -/
theorem phase_withRest (s : State) (p : List Stmt) : (s.withRest p).phase = phaseOf p := rfl

theorem phase_load (s : State) (p : List Stmt) : (s.load p).phase = phaseOf p := rfl

/-- The register at an index, told by the index: every register is found at its own, and no other index has one. -/
theorem ofIndex_index (r : Reg) : Reg.ofIndex r.index = some r := by cases r <;> rfl

theorem index_of_ofIndex (idx : Byte) (r : Reg) (h : Reg.ofIndex idx = some r) : r.index = idx := by
  revert idx r; decide

theorem ofIndex_eq_none_iff (idx : Byte) : Reg.ofIndex idx = none ↔ 0x11 ≤ idx.toNat := by
  revert idx; decide

/-- A host write of a register other than CMD changes that register at most. -/
theorem readReg_hostWrite_ne (s : State) (r q : Reg) (v : Nat) (h : q ≠ r) : (s.hostWrite r v).readReg q = s.readReg q := by
  unfold State.hostWrite
  cases r.access <;> simp [readReg_writeReg_ne _ _ _ _ h]

@[simp] theorem byte_hostWrite (s : State) (r : Reg) (v : Nat) (sp : Space) (i : Nat) :
    (s.hostWrite r v).byte sp i = s.byte sp i := by
  unfold State.hostWrite
  cases r.access <;> simp

/-- The word of an address a.b.c.d is the sum of its octets, the first the most significant (R54, R55). -/
theorem toNat_ip (p : Peer) : p.ip.toNat = fieldValue (bytesOf [p.a, p.b, p.c, p.d]) 0 4 := by
  simp only [Peer.ip, be32, BitVec.toNat_append, fieldValue, bytesOf, List.range, List.range.loop, List.map, List.sum_cons, List.sum_nil]
  rw [← Nat.shiftLeft_add_eq_or_of_lt p.b.isLt, ← Nat.shiftLeft_add_eq_or_of_lt p.c.isLt, ← Nat.shiftLeft_add_eq_or_of_lt p.d.isLt]
  simp [Nat.shiftLeft_eq]
  omega

/-- What an arrival does to the PEER registers, and that it does nothing else. -/
@[simp] theorem writeSender_none (s : State) : s.writeSender none = s := rfl

@[simp] theorem writeSender_some (s : State) (p : Peer) :
    s.writeSender (some p) = (s.writeReg .peerIp p.ip).writeReg .peerPort p.port := rfl

theorem readReg_writeSender_ne (s : State) (o : Option Peer) (q : Reg) (h : q ∉ [Reg.peerIp, .peerPort]) :
    (s.writeSender o).readReg q = s.readReg q := by
  simp only [List.mem_cons, List.not_mem_nil, or_false, not_or] at h
  cases o <;> simp [readReg_writeReg_ne, h.1, h.2]

@[simp] theorem byte_writeSender (s : State) (o : Option Peer) (sp : Space) (i : Nat) :
    (s.writeSender o).byte sp i = s.byte sp i := by cases o <;> simp

@[simp] theorem writeSender_outside (s : State) (o : Option Peer) : SameOutside s (s.writeSender o) := by
  cases o <;> simp [SameOutside]

/-- What a datagram's bytes do: IBUF takes the first RX_BUF_SIZE of them, IBUF_LEN their number, and nothing else changes. -/
theorem byte_receive (s : State) (bs : List Byte) (sp : Space) (i : Nat) :
    (s.receive bs).byte sp i = if sp = .ibuf ∧ i < min s.cfg.rxBufSize bs.length then bytesOf bs i else s.byte sp i := by
  rw [State.receive, byte_writeReg, byte_memWrite, List.length_take]
  by_cases h : sp = .ibuf ∧ i < min s.cfg.rxBufSize bs.length
  · have h1 : i < s.cfg.rxBufSize ∧ i < bs.length := by omega
    simp [h, bytesOf, List.getD_eq_getElem?_getD, h1]
  · rw [if_neg h, if_neg (by simpa using h)]

theorem readReg_receive_ne (s : State) (bs : List Byte) (q : Reg) (h : q ≠ .ibufLen) : (s.receive bs).readReg q = s.readReg q := by
  simp [State.receive, readReg_writeReg_ne, h]

@[simp] theorem receive_ibufLen (s : State) (bs : List Byte) :
    (s.receive bs).ibufLen = BitVec.ofNat 16 (min bs.length s.cfg.rxBufSize) := by simp [State.receive]

@[simp] theorem receive_outside (s : State) (bs : List Byte) : SameOutside s (s.receive bs) := by simp [SameOutside, State.receive]

/-- The only reason a branch's operand is refused: it names a reserved register. -/
theorem value_error (o : HostOperand) (s : State) (e : Refusal) (h : o.value s = .error e) :
    ∃ idx : Byte, o = .reg idx ∧ 0x11 ≤ idx.toNat ∧ e = .reservedRegister idx := by
  cases o with
  | reg idx =>
    simp only [HostOperand.value] at h
    cases hn : Reg.ofIndex idx with
    | some r => rw [hn] at h; cases h
    | none => rw [hn] at h; cases h; exact ⟨idx, rfl, (ofIndex_eq_none_iff idx).1 hn, rfl⟩
  | status f => cases h
  | cmd f => cases h

/-- A jump is refused exactly when the program lacks the label. -/
theorem runJmp_refused (l : Label) (s : State) (r : Refusal) :
    runJmp l s = .refused r ↔ afterLabel l s.host.prog = none ∧ r = .unknownLabel l := by
  unfold runJmp
  cases afterLabel l s.host.prog <;> simp [eq_comm]

/-- A branch is refused exactly when its operand is, or when it is taken and the jump is. -/
theorem runBranch_refused (o : HostOperand) (f : Nat → Bool) (l : Label) (s : State) (r : Refusal) :
    runBranch o f l s = .refused r ↔
      o.value s = .error r ∨ ∃ x, o.value s = .ok x ∧ f x = true ∧ runJmp l s = .refused r := by
  unfold runBranch
  cases o.value s with
  | error e => simp
  | ok x => cases hf : f x <;> simp [hf]

/-- A host branch or jump ends in the state with another list of statements left, or is refused. -/
theorem runJmp_next (l : Label) (s t : State) (h : runJmp l s = .next t) : ∃ p, t = s.withRest p := by
  unfold runJmp at h
  split at h
  · rename_i p _; cases h; exact ⟨p, rfl⟩
  · cases h

theorem runBranch_next (o : HostOperand) (f : Nat → Bool) (l : Label) (s t : State) (h : runBranch o f l s = .next t) :
    ∃ p, t = s.withRest p := by
  unfold runBranch at h
  split at h
  · cases h
  · split at h
    · exact runJmp_next l s t h
    · cases h; exact ⟨s.host.rest, (withRest_self s).symm⟩

end Sys2Proof.Machine
end

