-- ==== Sys2Proof/Laws/Commands.lean ====
section
/-! SUPPORT. What each command can do, said once: it raises one of its errors and writes STATUS only, or it writes its results and STATUS. -/

namespace Sys2Proof.Machine

/-- The state after a command with OP o raised e. -/
def State.afterError (s : State) (e : CmdError) (o : BitVec 3) : State := s.writeReg .status (statusError e o)

/-- The state after a command with OP o succeeded. -/
def State.afterOk (s : State) (o : BitVec 3) : State := s.writeReg .status (statusOk o)

theorem exec_typeEnc (s : State) :
    (knownMethod s.method = true ∧ exec .typeEnc s = .next ((s.writeReg .type (typeField s.cls s.method)).afterOk 0)) ∨
      (knownMethod s.method = false ∧ exec .typeEnc s = .next (s.afterError .encMethodUnknown 0)) := by
  cases h : knownMethod s.method
  · exact .inr ⟨rfl, by simp only [exec, execTypeEnc, typeEncodeF_unknown _ _ h]; rfl⟩
  · exact .inl ⟨rfl, by simp only [exec, execTypeEnc, typeEncodeF_known _ _ h]; rfl⟩

theorem exec_typeDec (s : State) :
    (∃ c m, typeDecodeF s.type = .ok (c, m) ∧ exec .typeDec s = .next (((s.writeReg .cls c).writeReg .method m).afterOk 1)) ∨
      ∃ e, typeDecodeF s.type = .error e ∧ exec .typeDec s = .next (s.afterError e 1) := by
  cases h : typeDecodeF s.type with
  | ok p => obtain ⟨c, m⟩ := p; exact .inl ⟨c, m, rfl, by simp only [exec, execTypeDec, h]; rfl⟩
  | error e => exact .inr ⟨e, rfl, by simp only [exec, execTypeDec, h]; rfl⟩

theorem exec_hdrDec (s : State) :
    (∃ h, headerDecodeF (s.byte .ibuf) s.ibufLen.toNat = .ok h ∧ exec .hdrDec s = .next ((s.writeHeader h).afterOk 2)) ∨
      ∃ e, headerDecodeF (s.byte .ibuf) s.ibufLen.toNat = .error e ∧ exec .hdrDec s = .next (s.afterError e 2) := by
  cases h : headerDecodeF (s.byte .ibuf) s.ibufLen.toNat with
  | ok p => exact .inl ⟨p, rfl, by simp only [exec, execHdrDec, h]; rfl⟩
  | error e => exact .inr ⟨e, rfl, by simp only [exec, execHdrDec, h]; rfl⟩

theorem exec_hdrEnc (s : State) :
    (knownMethod s.method = true ∧
        exec .hdrEnc s = .next ((s.writeOutput (headerBytes (typeField s.cls s.method) s.msgLen s.cookie s.tid)).afterOk 3)) ∨
      (knownMethod s.method = false ∧ exec .hdrEnc s = .next (s.afterError .encMethodUnknown 3)) := by
  cases h : knownMethod s.method
  · exact .inr ⟨rfl, by simp only [exec, execHdrEnc, headerEncodeF_unknown _ _ _ _ _ h]; rfl⟩
  · exact .inl ⟨rfl, by simp only [exec, execHdrEnc, headerEncodeF_known _ _ _ _ _ h]; rfl⟩

theorem exec_msgDec (s : State) :
    (∃ r, messageDecodeF (s.byte .ibuf) s.ibufLen.toNat = .ok r ∧
        exec .msgDec s = .next (((s.writeHeader r.header).writeAttr r).afterOk 4)) ∨
      ∃ e, messageDecodeF (s.byte .ibuf) s.ibufLen.toNat = .error e ∧ exec .msgDec s = .next (s.afterError e 4) := by
  cases h : messageDecodeF (s.byte .ibuf) s.ibufLen.toNat with
  | ok r => exact .inl ⟨r, rfl, by simp only [exec, execMsgDec, h]; rfl⟩
  | error e => exact .inr ⟨e, rfl, by simp only [exec, execMsgDec, h]; rfl⟩

/-- The bytes MSG_ENC emits from the message registers and VAL. -/
def State.messageBytes (s : State) : List Byte :=
  headerBytes (typeField s.cls s.method) s.msgLen s.cookie s.tid ++
    if s.attrPresent = 1 then bytes16 s.attrType ++ bytes16 s.attrLen ++ s.memRead .val 0 s.valCnt.toNat else []

theorem length_messageBytes (s : State) :
    s.messageBytes.length = if s.attrPresent = 1 then 24 + s.valCnt.toNat else 20 := by
  unfold State.messageBytes
  split <;> simp [State.memRead]
  omega

theorem bit_eq_zero_or_one (b : BitVec 1) : b = 0 ∨ b = 1 := by revert b; decide

/-- MSG_ENC's encoder on the registers gives those bytes. -/
theorem messageEncodeF_registers (s : State) (h : knownMethod s.method = true) :
    messageEncodeF s.cls s.method s.msgLen s.cookie s.tid s.attrPresent s.attrType s.attrLen s.attrValue =
      .ok s.messageBytes := by
  rw [messageEncodeF, headerEncodeF_known _ _ _ _ _ h]
  rcases bit_eq_zero_or_one s.attrPresent with hp | hp <;> simp [State.messageBytes, State.attrValue, hp, List.append_assoc]

theorem exec_msgEnc (s : State) :
    (knownMethod s.method = true ∧ ¬ (s.attrPresent = 1 ∧ s.valMax < s.valCnt.toNat) ∧
        exec .msgEnc s = .next ((s.writeOutput s.messageBytes).afterOk 5)) ∨
      (knownMethod s.method = false ∧ exec .msgEnc s = .next (s.afterError .encMethodUnknown 5)) ∨
      (knownMethod s.method = true ∧ s.attrPresent = 1 ∧ s.valMax < s.valCnt.toNat ∧
        exec .msgEnc s = .next (s.afterError .encValueOverflow 5)) := by
  cases h : knownMethod s.method
  · exact .inr (.inl ⟨rfl, by simp only [exec, execMsgEnc, h]; rfl⟩)
  · by_cases hv : s.attrPresent = 1 ∧ s.valMax < s.valCnt.toNat
    · exact .inr (.inr ⟨rfl, hv.1, hv.2, by simp only [exec, execMsgEnc, h, hv]; rfl⟩)
    · exact .inl ⟨rfl, hv, by simp only [exec, execMsgEnc, h, hv, messageEncodeF_registers s h]; rfl⟩

/-- Four bytes as two 16-bit halves. -/
theorem be32_eq_halves (a b c d : Byte) : be32 a b c d = be16 a b ++ be16 c d := by
  apply BitVec.eq_of_getLsbD_eq
  intro i hi
  simp only [be32, be16, BitVec.getLsbD_append]
  by_cases h1 : i < 8
  · simp [h1, show i < 16 by omega]
  · by_cases h2 : i < 16
    · simp [h1, h2, show i - 8 < 8 by omega]
    · simp [h1, h2, show ¬ i - 8 < 8 by omega, show i - 8 - 8 = i - 16 by omega]

theorem be64Of_xmaBuildF (ip : BitVec 32) (port : BitVec 16) :
    be64Of (xmaBuildF ip port) = 0x0001#16 ++ (port ^^^ magicHi16) ++ (ip ^^^ magicCookie) := by
  have h1 : be32At (bytesOf (xmaBuildF ip port)) 0 =
      be16 0x00 familyIpv4 ++ be16 ((port ^^^ magicHi16).extractLsb' 8 8) ((port ^^^ magicHi16).extractLsb' 0 8) :=
    be32_eq_halves _ _ _ _
  have h2 : be32At (bytesOf (xmaBuildF ip port)) 4 = ip ^^^ magicCookie := be32_split _
  rw [be64Of, h1, h2, be16_split]
  rfl

theorem exec_xmaBuild (s : State) :
    exec .xmaBuild s = .next ((s.writeReg .xmaOut (be64Of (xmaBuildF s.peerIp s.peerPort))).afterOk 6) := rfl

theorem exec_cmdIllegal (s : State) : exec .cmdIllegal s = .next (s.afterError .cmdIllegal 7) := rfl

theorem exec_cmdIllegalRsv (s : State) (rsv : BitVec 5) (op : BitVec 3) :
    exec (.cmdIllegalRsv rsv op) s = .next (s.afterError .cmdIllegal op) := rfl

/-- What a message record of a decoded datagram holds: no value at 20 bytes, and everything after byte 24 from 24 bytes on. -/
theorem messageDecodeF_ok (B : Nat → Byte) (n : Nat) (r : Message) (h : messageDecodeF B n = .ok r) :
    headerDecodeF B n = .ok r.header ∧
      ((n = 20 ∧ r.present = 0 ∧ r.atype = 0 ∧ r.alen = 0 ∧ r.value = []) ∨
        (24 ≤ n ∧ r.present = 1 ∧ r.atype = be16At B 20 ∧ r.alen = be16At B 22 ∧ r.value = slice B 24 (n - 24))) := by
  unfold messageDecodeF at h
  cases hd : headerDecodeF B n with
  | error e => rw [hd] at h; cases h
  | ok hdr =>
    rw [hd] at h
    simp only [hdrLen, attrHdrLen] at h
    by_cases h1 : n = 20
    · rw [if_pos h1] at h; cases h; exact ⟨rfl, .inl ⟨h1, rfl, rfl, rfl, rfl⟩⟩
    · rw [if_neg h1] at h
      by_cases h2 : n < 20 + 4
      · rw [if_pos h2] at h; cases h
      · rw [if_neg h2] at h
        cases h
        exact ⟨rfl, .inr ⟨by omega, rfl, rfl, rfl, rfl⟩⟩

theorem length_value_of_messageDecodeF (B : Nat → Byte) (n : Nat) (r : Message) (h : messageDecodeF B n = .ok r) :
    r.value.length = n - 24 := by
  rcases (messageDecodeF_ok B n r h).2 with ⟨rfl, _, _, _, hv⟩ | ⟨_, _, _, _, hv⟩ <;> simp [hv]

end Sys2Proof.Machine
end

