-- ==== Sys2Proof/Laws/PerInstr.lean ====
section
/-! SUPPORT. Families of statements made one instruction at a time. -/

namespace Sys2Proof.Laws

/-- Every command is exactly one CMD byte (spec/30_encoding.md R70, R74), and that byte has RSV = 0 exactly on the rows the opcode
table gives one exact byte (R71, R72). -/
def OneCommandByte.Statement (i : Instr) : Prop :=
  (encode i).length = 1 ∧ (i.wf = true → (cmdRsv (encodeByte i) = 0 ↔ ∀ rsv op, i ≠ .cmdIllegalRsv rsv op))

theorem OneCommandByte.typeEnc : OneCommandByte.Statement .typeEnc := ⟨rfl, fun _ => by simp; decide⟩
theorem OneCommandByte.typeDec : OneCommandByte.Statement .typeDec := ⟨rfl, fun _ => by simp; decide⟩
theorem OneCommandByte.hdrDec : OneCommandByte.Statement .hdrDec := ⟨rfl, fun _ => by simp; decide⟩
theorem OneCommandByte.hdrEnc : OneCommandByte.Statement .hdrEnc := ⟨rfl, fun _ => by simp; decide⟩
theorem OneCommandByte.msgDec : OneCommandByte.Statement .msgDec := ⟨rfl, fun _ => by simp; decide⟩
theorem OneCommandByte.msgEnc : OneCommandByte.Statement .msgEnc := ⟨rfl, fun _ => by simp; decide⟩
theorem OneCommandByte.xmaBuild : OneCommandByte.Statement .xmaBuild := ⟨rfl, fun _ => by simp; decide⟩
theorem OneCommandByte.cmdIllegal : OneCommandByte.Statement .cmdIllegal := ⟨rfl, fun _ => by simp; decide⟩

theorem OneCommandByte.cmdIllegalRsv (rsv : BitVec 5) (op : BitVec 3) :
    OneCommandByte.Statement (.cmdIllegalRsv rsv op) := by
  refine ⟨rfl, fun h => ?_⟩
  have hr : cmdRsv (encodeByte (.cmdIllegalRsv rsv op)) = rsv := by
    revert rsv op; decide
  have hne : rsv ≠ 0 := by simpa [Instr.wf] using h
  simp only [hr, hne, false_iff, not_forall, not_not]
  exact ⟨rsv, op, rfl⟩

end Sys2Proof.Laws
end

