-- ==== Sys2Proof/Tests/Slice0.lean ====
section
/-! SUPPORT. Tests: the checks of WellFormed, words written out from the spec's encodings, the vectors of spec/95_test_vectors.md (RX_BUF_SIZE = 64, as
there), and for each statement with hypotheses a state that meets them. -/

namespace Sys2Proof.Tests
open Sys2Proof Sys2Proof.Machine

/-! ### Helpers -/

/-- The block of the test vectors, right after reset: RX_BUF_SIZE = 64. -/
def base : State := { State.reset with cfg := { rxBufSize := 64 } }

/-- The sample transaction id T of spec/95. -/
def sampleT : List Byte := [0x01, 0x02, 0x03, 0x04, 0x05, 0x06, 0x07, 0x08, 0x09, 0x0A, 0x0B, 0x0C]

/-- A header with the given first eight bytes and T. -/
def hdr (first : List Byte) : List Byte := first ++ sampleT

/-- A valid Binding Request header. -/
def request : List Byte := hdr [0x00, 0x01, 0x00, 0x00, 0x21, 0x12, 0xA4, 0x42]

/-- The block with a datagram in IBUF. -/
def holding (bs : List Byte) : State := base.receive bs

/-- The block with a message in its registers, as V-ME-1. -/
def responding : State :=
  { base with cls := 0b10, method := 0x001, msgLen := 12, tid := 0x0102030405060708090A0B0C, attrPresent := 1,
              attrType := 0x0020, attrLen := 8, valCnt := 8,
              val := [(0, 0x00), (1, 0x01), (2, 0xBD), (3, 0x52), (4, 0xEA), (5, 0x12), (6, 0xD5), (7, 0x47)] }

/-- The sender 203.0.113.5:40000 of V-X-1. -/
def samplePeer : Peer := { a := 203, b := 0, c := 113, d := 5, port := 40000 }

/-- A state whose host has one statement to run, with a label 7 in its program. -/
def about (st : Stmt) (s : State) : State := { s with host := { s.host with prog := [.label 7, .send], rest := [st] } }

/-- A condition on the next state; a fault or a refusal meets none. -/
def ends (r : Result) (f : State → Bool) : Bool :=
  match r with
  | .next t => f t
  | .fault _ => false
  | .refused _ => false

/-- The step is refused for this reason. -/
def refusedFor (r : Result) (why : Refusal) : Bool :=
  match r with
  | .next _ => false
  | .fault _ => false
  | .refused w => w == why

/-! ### WellFormed refuses the ill-formed term -/

theorem test_wf_refuses_rsv_zero : Instr.wf (.cmdIllegalRsv 0 5) = false := by decide

/-! ### Decoding: words written out from R70 and R71, RSV then OP -/

theorem test_decode_type_enc : decode [0b00000000] = .ok (.typeEnc, []) := by decide
theorem test_decode_type_dec : decode [0b00000001] = .ok (.typeDec, []) := by decide
theorem test_decode_hdr_dec : decode [0b00000010] = .ok (.hdrDec, []) := by decide
theorem test_decode_hdr_enc : decode [0b00000011] = .ok (.hdrEnc, []) := by decide
theorem test_decode_msg_dec : decode [0b00000100] = .ok (.msgDec, []) := by decide
theorem test_decode_msg_enc : decode [0b00000101] = .ok (.msgEnc, []) := by decide
theorem test_decode_xma_build : decode [0b00000110] = .ok (.xmaBuild, []) := by decide
theorem test_decode_illegal_07 : decode [0b00000111] = .ok (.cmdIllegal, []) := by decide
theorem test_decode_illegal_rsv : decode [0b10000110] = .ok (.cmdIllegalRsv 0b10000 0b110, []) := by decide
theorem test_decode_nothing : decode [] = .error .noCommandByte := by decide
theorem test_table_word : decodeTableWord 8 0x06 = some .xmaBuild ∧ decodeTableWord 8 0x106 = some .xmaBuild ∧
    decodeTableWord 16 0x106 = none := by decide

/-! ### The commands: vectors of spec/95 sections 2.1 to 2.8 -/

/-- V-TE-9. -/
theorem test_type_enc_largest :
    ends (exec .typeEnc { base with cls := 0b11, method := 0x009 }) (fun t => t.type == 0x0119 && t.status == 0x0001) = true := by decide

/-- V-TE-14. -/
theorem test_type_enc_unknown :
    ends (exec .typeEnc { base with method := 0x801, type := 0x1234 }) (fun t => t.type == 0x1234 && t.status == 0x0073) = true := by decide

/-- V-TD-4. -/
theorem test_type_dec_allocate_error :
    ends (exec .typeDec { base with type := 0x0113 }) (fun t => t.cls == 0b11 && t.method == 0x003 && t.status == 0x0101) = true := by decide

/-- V-TD-18: the reserved bits are checked before the method. -/
theorem test_type_dec_reserved_first : ends (exec .typeDec { base with type := 0xFFFF }) (fun t => t.status == 0x0123) = true := by decide

/-- V-HD-8. -/
theorem test_hdr_dec_unchecked_length :
    ends (exec .hdrDec (holding (hdr [0x00, 0x01, 0xFF, 0xFF, 0x21, 0x12, 0xA4, 0x42]))) (fun t => t.type == 0x0001 && t.cls == 0b00 &&
      t.method == 0x001 && t.msgLen == 0xFFFF && t.tid == 0x0102030405060708090A0B0C && t.status == 0x0201) = true := by decide

/-- V-HD-5: the byte-swapped cookie. -/
theorem test_hdr_dec_swapped_cookie :
    ends (exec .hdrDec (holding (hdr [0x01, 0x01, 0x00, 0x0C, 0x42, 0xA4, 0x12, 0x21]))) (fun t => t.status == 0x0253 && t.tid == 0) = true := by decide

/-- V-HE-3: the cookie is emitted as held. -/
theorem test_hdr_enc_cookie_as_held :
    ends (exec .hdrEnc { base with cls := 0b01, method := 0x007, msgLen := 0x1234, cookie := 0xDEADBEEF, tid := 0x0102030405060708090A0B0C })
      (fun t => t.memRead .obuf 0 20 == hdr [0x00, 0x17, 0x12, 0x34, 0xDE, 0xAD, 0xBE, 0xEF] && t.obufLen == 20 && t.status == 0x0301) = true := by decide

/-- V-HE-4. -/
theorem test_hdr_enc_unknown : ends (exec .hdrEnc { base with cls := 0b10 }) (fun t => t.obuf == [] && t.obufLen == 0 && t.status == 0x0373) = true := by decide

/-- V-MD-6: the declared length 3 is kept beside 4 value bytes. -/
theorem test_msg_dec_mismatched_length :
    ends (exec .msgDec (holding ([0x00, 0x11, 0x00, 0x08, 0x21, 0x12, 0xA4, 0x42] ++ sampleT ++ [0x80, 0x22, 0x00, 0x03, 0x41, 0x42, 0x43, 0x44])))
      (fun t => t.cls == 0b01 && t.method == 0x001 && t.msgLen == 8 && t.attrPresent == 1 && t.attrType == 0x8022 && t.attrLen == 3 &&
        t.valCnt == 4 && t.memRead .val 0 4 == [0x41, 0x42, 0x43, 0x44] && t.status == 0x0401) = true := by decide

/-- V-MD-4: a truncated attribute. -/
theorem test_msg_dec_truncated_attribute :
    ends (exec .msgDec (holding (request ++ [0x00, 0x00, 0x00]))) (fun t => t.status == 0x0463 && t.method == 0) = true := by decide

/-- V-ME-1. -/
theorem test_msg_enc_binding_response :
    ends (exec .msgEnc responding) (fun t => t.obufLen == 32 && t.status == 0x0501 && t.memRead .obuf 0 32 ==
      hdr [0x01, 0x01, 0x00, 0x0C, 0x21, 0x12, 0xA4, 0x42] ++ [0x00, 0x20, 0x00, 0x08, 0x00, 0x01, 0xBD, 0x52, 0xEA, 0x12, 0xD5, 0x47]) = true := by decide

/-- V-ME-5: VAL_CNT one above VAL_MAX. -/
theorem test_msg_enc_overflow :
    ends (exec .msgEnc { responding with valCnt := 41 }) (fun t => t.obuf == [] && t.obufLen == 0 && t.status == 0x0583) = true := by decide

/-- V-X-4, the RFC 5769 sample. -/
theorem test_xma_build_sample :
    ends (exec .xmaBuild { base with peerIp := 0xC0000201, peerPort := 0x8055 }) (fun t => t.xmaOut == 0x0001A147E112A643 && t.status == 0x0601) = true := by decide

/-- V-X-3. -/
theorem test_xma_build_all_ones :
    ends (exec .xmaBuild { base with peerIp := 0xFFFFFFFF, peerPort := 0xFFFF }) (fun t => t.xmaOut == 0x0001DEEDDEED5BBD) = true := by decide

/-- V-C-3 (as a step): CMD holds the word, STATUS reports 9. -/
theorem test_illegal_ff : ends (step (about (.wr 0x00 0xFF) base)) (fun t => t.cmd == 0xFF && t.status == 0x0793) = true := by decide

/-- V-C-4: RSV set, XMA_BUILD not run. -/
theorem test_illegal_86 : ends (step (about (.issue 0x86) base)) (fun t => t.status == 0x0693 && t.xmaOut == 0) = true := by decide

/-- V-R-6. -/
theorem test_ibuf_len_clamped : ends (step (about (.wr 0x0C 100) base)) (fun t => t.ibufLen == 64 && t.status == 0) = true := by decide

/-- V-R-7. -/
theorem test_xma_out_read_only : ends (step (about (.wr 0x10 5) base)) (fun t => t.xmaOut == 0) = true := by decide

/-- R84, CPYXMA on the value of V-X-1: byte 2 of XMA_OUT goes to VAL[2]. -/
theorem test_cpyxma_third_byte :
    ends (step (about .cpyxma { base with xmaOut := 0x0001BD52EA12D547 })) (fun t => t.host.rest[3]? == some (.wrb .val 2 0xBD)) = true := by decide

/-- R55, the address of V-X-1: 203.0.113.5 is 0xCB007105, its first octet the most significant. -/
theorem test_rx_packs_the_address :
    ends (step (about (.rx request (some samplePeer)) base)) (fun t => t.peerIp == 0xCB007105 && t.peerPort == 0x9C40 && t.ibufLen == 20) = true := by decide

/-- R174: a form without a sender leaves the PEER registers. -/
theorem test_rx_without_sender :
    ends (step (about (.rx request none) { base with peerIp := 7, peerPort := 9 })) (fun t => t.peerIp == 7 && t.peerPort == 9 && t.ibufLen == 20) = true := by decide

/-- R178: Idle goes to Handling at the RX action, and not before. -/
theorem test_rx_starts_handling :
    (about (.rx request (some samplePeer)) base).phase = .idle ∧
      ends (step (base.load (handlerProgram { bytes := request, sender := samplePeer }))) (fun t => t.phase == .handling) = true := by decide

/-- The first step after reset with a command word in place. -/
theorem test_first_step_runs_the_word :
    ends (step (State.reset.withFetchWord 8 0x06)) (fun t => t.xmaOut == 0x000121122112A442 && t.cmd == 0x06) = true := by decide

/-! ### A state for the hypotheses of each statement -/

theorem witness_DecodeOfEncodeGivesTheCommand : Instr.wf .typeEnc = true ∧ Instr.wf (.cmdIllegalRsv 0b00001 0b111) = true := by decide

theorem witness_EncodeOfDecodeGivesTheBytes : decode [0xFF, 0x00] = .ok (.cmdIllegalRsv 0b11111 0b111, [0x00]) := by decide

theorem witness_IllegalCommandWordsWriteStatusOnly :
    (0x07#8).extractLsb 2 0 = 0b111 ∧ (0x08#8).extractLsb 7 3 ≠ 0 ∧ ¬ ((0x06#8).extractLsb 2 0 = 0b111 ∨ (0x06#8).extractLsb 7 3 ≠ 0) := by decide

theorem witness_StepRunsTheDecodedCommand :
    (about (.issue 0x04) base).host.rest = [.issue 0x04] ∧ decode [0x04] = .ok (.msgDec, []) ∧
      (about (.wr 0x00 255) base).host.rest = [.wr 0x00 255] ∧ decode [BitVec.ofNat 8 255] = .ok (.cmdIllegalRsv 31 7, []) := by decide

theorem witness_TypeEncodePlacesClassAndMethodBits : knownMethod 0x009 = true ∧ knownMethod 0x00A = false := by decide

theorem witness_TypeDecodeChecksAndExtracts :
    (0x4000#16).extractLsb 15 14 ≠ 0b00 ∧ (0x0119#16).extractLsb 15 14 = 0b00 ∧ (0b11#2).getLsbD 1 = (0x0119#16).getLsbD 8 ∧
      (0b11#2).getLsbD 0 = (0x0119#16).getLsbD 4 ∧ (0x009#12).extractLsb 11 7 = (0x0119#16).extractLsb 13 9 ∧
      (0x009#12).extractLsb 6 4 = (0x0119#16).extractLsb 7 5 ∧ (0x009#12).extractLsb 3 0 = (0x0119#16).extractLsb 3 0 := by decide

theorem witness_TypeCodecFunctionsAreMutualInverses : knownMethod 0x001 = true ∧ typeDecodeF 0x0119 = .ok (0b11, 0x009) := by decide

theorem witness_TypeTableAgreesWithTheFunctions :
    typeTableEntry 0b11 0x009 = some 0x0119 ∧ typeEncodeF 0b11 0x009 = .ok 0x0119 ∧ typeDecodeF 0x3FFF = .error .fmtMethodUnknown ∧
      typeDecodeF 0x4000 = .error .fmtTypeReserved := by decide

theorem witness_HeaderDecodeChecksAndFields :
    typeDecodeF (be16 (bytesOf request 0) (bytesOf request 1)) = .ok (0b00, 0x001) ∧
      be32 (bytesOf request 4) (bytesOf request 5) (bytesOf request 6) (bytesOf request 7) = 0x2112A442 ∧
      be32 (bytesOf sampleT 4) (bytesOf sampleT 5) (bytesOf sampleT 6) (bytesOf sampleT 7) ≠ 0x2112A442 ∧
      typeDecodeF (be16 0xC0 0x01) = .error .fmtTypeReserved := by decide

theorem witness_HeaderEncodeSerialisesInOrder : typeEncodeF 0b10 0x001 = .ok 0x0101 ∧ typeEncodeF 0b10 0x000 = .error .encMethodUnknown := by decide

theorem witness_HeaderRoundTrip : knownMethod 0x008 = true := by decide

theorem witness_MessageDecodeByDatagramLength :
    headerDecodeF (bytesOf request) 19 = .error .fmtHdrTrunc ∧
      (headerDecodeF (bytesOf request) 20).isOk = true ∧ (headerDecodeF (bytesOf request) 21).isOk = true ∧
      (headerDecodeF (bytesOf request) 23).isOk = true ∧ (headerDecodeF (bytesOf request) 24).isOk = true := by decide

theorem witness_MessageEncodeAppendsTheAttribute :
    headerEncodeF 0b10 0x000 12 0 0 = .error .encMethodUnknown ∧ (headerEncodeF 0b10 0x001 12 0 0).isOk = true := by decide

theorem witness_MessageRoundTrip :
    Config.ok { rxBufSize := 32 } ∧ typeEncodeF 0b10 0x001 = .ok 0x0101 ∧ xmaValueLen ≤ 32 - 24 := by decide

theorem witness_TypeEncCommand : knownMethod responding.method = true ∧ knownMethod base.method = false := by decide

theorem witness_TypeDecCommand :
    typeDecodeF 0x0001 = .ok (0b00, 0x001) ∧ (0x4001#16).extractLsb 15 14 ≠ 0 ∧ (0x3FFF#16).extractLsb 15 14 = 0 ∧
      knownMethod (typeMethod 0x3FFF) = false := by decide

theorem witness_HdrDecCommand :
    (headerDecodeF ((holding request).byte .ibuf) (holding request).ibufLen.toNat).isOk = true ∧
      (holding (request.take 19)).ibufLen.toNat < 20 ∧ 20 ≤ (holding request).ibufLen.toNat ∧
      ((holding (hdr [0x40, 0x01, 0, 0, 0, 0, 0, 0])).byte .ibuf 0).extractLsb 7 6 ≠ 0 ∧
      knownMethod (typeMethod (be16At ((holding (hdr [0x00, 0x02, 0, 0, 0, 0, 0, 0])).byte .ibuf) 0)) = false ∧
      fieldValue ((holding (hdr [0x00, 0x01, 0, 0, 0, 0, 0, 0])).byte .ibuf) 4 4 ≠ 0x2112A442 ∧
      fieldValue ((holding request).byte .ibuf) 4 4 = 0x2112A442 := by decide

theorem witness_HdrEncCommand : knownMethod responding.method = true ∧ knownMethod base.method = false := by decide

theorem witness_MsgDecCommandStoresTheMessage :
    (messageDecodeF ((holding request).byte .ibuf) (holding request).ibufLen.toNat).isOk = true ∧
      (messageDecodeF ((holding (request ++ [0, 0, 0, 0])).byte .ibuf) (holding (request ++ [0, 0, 0, 0])).ibufLen.toNat).isOk = true := by decide

theorem witness_MsgDecErrorsInPriorityOrder :
    (holding (request.take 19)).ibufLen.toNat < 20 ∧
      ((holding (hdr [0x80, 0x01, 0, 0, 0, 0, 0, 0])).byte .ibuf 0).extractLsb 7 6 ≠ 0 ∧
      knownMethod (typeMethod (be16At ((holding request).byte .ibuf) 0)) = true ∧
      20 < (holding (request ++ [0])).ibufLen.toNat ∧ (holding (request ++ [0, 0, 0])).ibufLen.toNat < 24 ∧
      24 ≤ (holding (request ++ [0, 0, 0, 0])).ibufLen.toNat := by decide

theorem witness_MsgEncCommandEmitsTheMessage :
    responding.cfg.ok ∧ knownMethod responding.method = true ∧ responding.valCnt.toNat ≤ responding.cfg.rxBufSize - 24 ∧
      { responding with attrPresent := 0, valCnt := 0xFFFF }.attrPresent ≠ 1 ∧ { responding with valCnt := 40 }.valCnt.toNat = 64 - 24 := by decide

theorem witness_MsgEncErrorsInPriorityOrder :
    knownMethod base.method = false ∧ responding.attrPresent = 1 ∧ 64 - 24 < { responding with valCnt := 41 }.valCnt.toNat := by decide

theorem witness_MsgEncEmitsTheBindingResponse :
    responding.cfg.ok ∧ responding.cookie = 0x2112A442 ∧ responding.memRead .val 0 8 = xmaBuildF 0xCB007105 0x9C40 := by decide

theorem witness_EncodeCopyDecodeKeepsTheMessage :
    responding.cfg.ok ∧ knownMethod responding.method = true ∧ responding.cookie = 0x2112A442 ∧
      ends (exec .msgEnc responding) (fun t => (holding (t.memRead .obuf 0 32)).ibufLen == t.obufLen &&
        (holding (t.memRead .obuf 0 32)).memRead .ibuf 0 32 == t.memRead .obuf 0 32) = true := by decide

theorem witness_ErrorsWriteStatusOnly : ends (exec .typeEnc base) (fun t => t.status.getLsbD 1) = true := by decide

theorem witness_SuccessReportsDoneAndLastOp : ends (exec .xmaBuild base) (fun t => !t.status.getLsbD 1) = true := by decide

theorem witness_ErrorMatrix :
    ends (exec .msgDec base) (fun t => statusErr t.status == 1) = true ∧ CmdError.fmtAttrTrunc ∈ Instr.errors .msgDec := by decide

theorem witness_CommandsWriteOnlyTheirOwn : responding.cfg.ok ∧ ends (exec .msgEnc responding) (fun _ => true) = true := by decide

theorem witness_CommandsReadOnlyTheirOperands :
    base.cfg = responding.cfg ∧ (∀ r ∈ Instr.readRegs .xmaBuild, base.readReg r = responding.readReg r) ∧
      ends (exec .xmaBuild base) (fun t => !t.status.getLsbD 1) = true := by decide

theorem witness_DecodersLeaveKnownMethodAndCookie :
    ends (exec .hdrDec (holding request)) (fun t => !t.status.getLsbD 1) = true ∧
      ends (exec .typeDec { base with type := 0x0119 }) (fun t => !t.status.getLsbD 1) = true := by decide

theorem witness_HostRegisterWrite :
    (about (.wr 0x04 0xFFF) base).host.rest = [.wr 0x04 0xFFF] ∧ Reg.method.index = 0x04 ∧ 0xFFF < 2 ^ Reg.method.width ∧
      Reg.cmd.index = 0x00 ∧ Reg.status.index = 0x01 ∧ Reg.ibufLen.index = 0x0C ∧ 0x11 ≤ (0x11#8).toNat := by decide

theorem witness_HostRegisterRead :
    (about (.rd 0x10) base).host.rest = [.rd 0x10] ∧ Reg.xmaOut.index = 0x10 ∧
      refusedFor (step (about (.rd 0x11) base)) (.reservedRegister 0x11) = true := by decide

theorem witness_HostBufferAccess :
    (about (.wrb .ibuf 63 0xAA) base).host.rest = [.wrb .ibuf 63 0xAA] ∧ 63 < base.sizeOf .ibuf ∧ 39 < base.sizeOf .val ∧
      base.sizeOf .val ≤ 40 ∧ refusedFor (step (about (.rdb .obuf 64) base)) (.bufferIndexOutOfRange .obuf 64) = true := by decide

theorem witness_DatagramArrival :
    base.cfg.ok ∧ (about (.rx request (some samplePeer)) base).host.rest = [.rx request (some samplePeer)] ∧
      (about (.rx [] none) base).host.rest = [.rx [] none] := by decide

theorem witness_TransmissionSendsTheOutput : (about .send responding).host.rest = [.send] := by decide

theorem witness_HostBranches :
    HostOperand.value (about (.beq (.status .err) 0 7) base) (.status .err) = .ok 0 ∧
      afterLabel 7 (about (.beq (.status .err) 0 7) base).host.prog = some [.send] ∧
      (about (.beq (.status .err) 1 8) base).host.rest = [.beq (.status .err) 1 8] ∧
      (about (.bne (.reg 0x03) 0 7) base).host.rest = [.bne (.reg 0x03) 0 7] ∧ HostOperand.value base (.reg 0x03) = .ok 0 ∧
      HostOperand.value base (.reg 0x06) = .ok 0x2112A442 ∧
      (about (.jmp 7) base).host.rest = [.jmp 7] ∧ (about (.label 7) base).host.rest = [.label 7] ∧ (about .stop base).host.rest = [.stop] := by decide

theorem witness_PseudoInstructionsExpand :
    (about .cpyxma base).host.rest = [.cpyxma] ∧ (about (.wrv [0x41]) base).host.rest = [.wrv [0x41]] ∧
      (about (.peer { a := 0, b := 0, c := 0, d := 0, port := 1 }) base).host.rest = [.peer { a := 0, b := 0, c := 0, d := 0, port := 1 }] := by decide

theorem witness_ReadsAndControlFlowLeaveTheBlock : Stmt.leavesBlock .send = true ∧ ends (step (about .send responding)) (fun _ => true) = true := by decide

theorem witness_IdleStepHoldsTheBlock :
    base.host.rest = [] ∧ base.host.inbox = [] ∧
      { base with host := { base.host with inbox := [{ bytes := request, sender := { a := 0, b := 0, c := 0, d := 0, port := 0 } }] } }.host.rest = [] := by decide

theorem witness_HandlerPhasesFollowTheDatagram :
    (base.load (handlerProgram { bytes := request, sender := samplePeer })).host.rest = handlerProgram { bytes := request, sender := samplePeer } ∧
      (let s := (base.load (handlerProgram { bytes := request, sender := samplePeer })).withRest [.bne (.reg 0x04) 0x001 0]
       HostOperand.value s (.reg 0x04) = .ok 0) ∧
      (base.load [.send, .label 0, .stop]).host.rest = [.send, .label 0, .stop] ∧ (base.load [.stop]).host.rest = [.stop] := by decide

theorem witness_OnlyCommandIssuesWriteStatusAndCmd :
    ends (step (about (.issue 0x06) base)) (fun t => t.status != base.status) = true ∧
      ends (step (about (.wr 0x00 0x06) base)) (fun t => t.cmd != base.cmd) = true ∧
      ends (step (about .reset { base with cmd := 6 })) (fun t => t.cmd != 6) = true := by decide

theorem witness_RefusalsAreHostViolations :
    refusedFor (step (about (.wr 0x11 0) base)) (.reservedRegister 0x11) = true ∧
      refusedFor (step (about (.wrb .val 40 0) base)) (.bufferIndexOutOfRange .val 40) = true ∧
      refusedFor (step (about (.wr 0x03 4) base)) (.valueTooWide 0x03 4) = true ∧
      refusedFor (step (about (.jmp 8) base)) (.unknownLabel 8) = true ∧
      refusedFor (step (about (.bne (.status .err) 1 8) base)) (.unknownLabel 8) = true ∧
      refusedFor (step (about (.beq (.reg 0xFF) 0 7) base)) (.reservedRegister 0xFF) = true := by decide

theorem witness_ResetEventRestoresTheResetValues : (about .reset responding).host.rest = [.reset] := by decide

/-- The invariant's conditions on a state with a message in it; the invariant itself is a statement. -/
theorem witness_EveryStepKeepsTheInvariant : Inv responding where
  cfg := by decide
  bufs := fun sp => by cases sp <;> exact ⟨by decide, by decide⟩
  ibufLen := by decide
  obufLen := by decide
  status := .inl (by decide)
  lastOp := by decide
  xmaOut := .inl (by decide)

end Sys2Proof.Tests
end

section
/-! PROOFS. The family 10_state.md: what a command and a step can do, said once, and the statements about the block's state that follow. -/

namespace Sys2Proof.Machine

/-! ### STATUS words -/

/-- The bits of a STATUS word that R25 names, reserved bits included. -/
theorem statusWord_bits (err : BitVec 1) (c : BitVec 4) (o : BitVec 3) :
    (statusWord err c o).getLsbD 0 = true ∧ (statusWord err c o).getLsbD 1 = (err == 1) ∧
      (statusWord err c o).extractLsb 3 2 = 0 ∧ (statusWord err c o).extractLsb 15 11 = 0 := by
  revert err c o; decide

theorem statusError_getLsbD_err (e : CmdError) (o : BitVec 3) : (statusError e o).getLsbD 1 = true :=
  (statusWord_bits 1 e.code o).2.1

@[simp] theorem statusLastOp_statusOk (o : BitVec 3) : statusLastOp (statusOk o) = o := statusLastOp_word 0 0 o

@[simp] theorem statusLastOp_statusError (e : CmdError) (o : BitVec 3) : statusLastOp (statusError e o) = o :=
  statusLastOp_word 1 e.code o

theorem code_ne_zero (e : CmdError) : e.code ≠ 0 := by cases e <;> decide

theorem code_toNat_le (e : CmdError) : e.code.toNat ≤ 9 := by cases e <;> decide

theorem code_eq_three_iff (e : CmdError) : e.code = 3 ↔ e = .fmtClassUnknown := by cases e <;> decide

/-- What R25 asks of STATUS after a command with OP o: DONE, LAST_OP, ERR exactly with an error code, a code of R201 other than 3, and the
reserved bits 0. -/
def ReportsCommand (o : BitVec 3) (v : BitVec 16) : Prop :=
  v.getLsbD 0 = true ∧ v.extractLsb 10 8 = o ∧ (v.getLsbD 1 = true ↔ v.extractLsb 7 4 ≠ 0) ∧ (v.extractLsb 7 4).toNat ≤ 9 ∧
    v.extractLsb 7 4 ≠ 3 ∧ v.extractLsb 3 2 = 0 ∧ v.extractLsb 15 11 = 0

theorem reportsCommand_statusWord (err : BitVec 1) (c : BitVec 4) (o : BitVec 3) (herr : err = 1 ↔ c ≠ 0) (hle : c.toNat ≤ 9)
    (hne : c ≠ 3) : ReportsCommand o (statusWord err c o) := by
  obtain ⟨hdone, herrBit, hlow, hhigh⟩ := statusWord_bits err c o
  have hc : (statusWord err c o).extractLsb 7 4 = c := statusEcode_word err c o
  have ho : (statusWord err c o).extractLsb 10 8 = o := statusLastOp_word err c o
  refine ⟨hdone, ho, ?_, ?_, ?_, hlow, hhigh⟩
  · rw [herrBit, hc, beq_iff_eq]
    exact herr
  · rwa [hc]
  · rwa [hc]

theorem reportsCommand_statusOk (o : BitVec 3) : ReportsCommand o (statusOk o) :=
  reportsCommand_statusWord 0 0 o (by decide) (by decide) (by decide)

theorem reportsCommand_statusError (e : CmdError) (o : BitVec 3) (he : e ≠ .fmtClassUnknown) :
    ReportsCommand o (statusError e o) :=
  reportsCommand_statusWord 1 e.code o (iff_of_true rfl (code_ne_zero e)) (code_toNat_le e) (mt (code_eq_three_iff e).1 he)

/-! ### What a command can do -/

@[simp] theorem op_cmdIllegalRsv (rsv : BitVec 5) (op : BitVec 3) : (Instr.cmdIllegalRsv rsv op).op = op := by
  revert rsv op; decide

/-- The command a word selects reports the word's OP (R25, R72). -/
theorem op_decodeByte (w : Byte) : (decodeByte w).op = cmdOp w := by
  revert w; decide

/-- R215: no command's row has FMT_CLASS_UNKNOWN. -/
theorem fmtClassUnknown_not_mem_errors (i : Instr) : CmdError.fmtClassUnknown ∉ i.errors := by
  cases i <;> simp [Instr.errors]

theorem typeDecodeF_error_mem (t : BitVec 16) (e : CmdError) (h : typeDecodeF t = .error e) :
    e ∈ [CmdError.fmtTypeReserved, .fmtMethodUnknown] := by
  rcases (typeDecodeF_error_iff t e).1 h with ⟨_, rfl⟩ | ⟨_, _, rfl⟩ <;> simp

/-- The message decoder fails as the header decoder does, or with FMT_ATTR_TRUNC (R140). -/
theorem messageDecodeF_error_mem (B : Nat → Byte) (n : Nat) (e : CmdError) (h : messageDecodeF B n = .error e) :
    e ∈ [CmdError.fmtHdrTrunc, .fmtTypeReserved, .fmtMethodUnknown, .fmtCookie, .fmtAttrTrunc] := by
  unfold messageDecodeF at h
  split at h
  · rename_i he
    cases h
    exact List.mem_append_left [CmdError.fmtAttrTrunc] (headerDecodeF_error_mem B n e he)
  · split at h
    · cases h
    · split at h <;> cases h
      simp

/-- The results of a command that succeeds in state s, STATUS not yet written: when it succeeds and what it writes (R73). -/
inductive CommandResult (s : State) : Instr → State → Prop
  | typeEnc (hm : knownMethod s.method = true) : CommandResult s .typeEnc (s.writeReg .type (typeField s.cls s.method))
  | typeDec {c : BitVec 2} {m : BitVec 12} (hd : typeDecodeF s.type = .ok (c, m)) :
      CommandResult s .typeDec ((s.writeReg .cls c).writeReg .method m)
  | hdrDec {h : Header} (hd : headerDecodeF (s.byte .ibuf) s.ibufLen.toNat = .ok h) : CommandResult s .hdrDec (s.writeHeader h)
  | hdrEnc (hm : knownMethod s.method = true) :
      CommandResult s .hdrEnc (s.writeOutput (headerBytes (typeField s.cls s.method) s.msgLen s.cookie s.tid))
  | msgDec {r : Message} (hd : messageDecodeF (s.byte .ibuf) s.ibufLen.toNat = .ok r) :
      CommandResult s .msgDec ((s.writeHeader r.header).writeAttr r)
  | msgEnc (hm : knownMethod s.method = true) (hv : ¬ (s.attrPresent = 1 ∧ s.valMax < s.valCnt.toNat)) :
      CommandResult s .msgEnc (s.writeOutput s.messageBytes)
  | xmaBuild : CommandResult s .xmaBuild (s.writeReg .xmaOut (be64Of (xmaBuildF s.peerIp s.peerPort)))

/-- Every command ends in one of two ways: its results and success, or one of its own errors with nothing but STATUS written. -/
theorem exec_cases (i : Instr) (s : State) :
    (∃ u, CommandResult s i u ∧ exec i s = .next (u.afterOk i.op)) ∨
      ∃ e ∈ i.errors, exec i s = .next (s.afterError e i.op) := by
  cases i with
  | typeEnc =>
    rcases exec_typeEnc s with ⟨hm, hx⟩ | ⟨_, hx⟩
    · exact .inl ⟨_, .typeEnc hm, hx⟩
    · exact .inr ⟨_, by simp [Instr.errors], hx⟩
  | typeDec =>
    rcases exec_typeDec s with ⟨c, m, hd, hx⟩ | ⟨e, he, hx⟩
    · exact .inl ⟨_, .typeDec hd, hx⟩
    · exact .inr ⟨e, typeDecodeF_error_mem _ _ he, hx⟩
  | hdrDec =>
    rcases exec_hdrDec s with ⟨h, hd, hx⟩ | ⟨e, he, hx⟩
    · exact .inl ⟨_, .hdrDec hd, hx⟩
    · exact .inr ⟨e, headerDecodeF_error_mem _ _ _ he, hx⟩
  | hdrEnc =>
    rcases exec_hdrEnc s with ⟨hm, hx⟩ | ⟨_, hx⟩
    · exact .inl ⟨_, .hdrEnc hm, hx⟩
    · exact .inr ⟨_, by simp [Instr.errors], hx⟩
  | msgDec =>
    rcases exec_msgDec s with ⟨r, hd, hx⟩ | ⟨e, he, hx⟩
    · exact .inl ⟨_, .msgDec hd, hx⟩
    · exact .inr ⟨e, messageDecodeF_error_mem _ _ _ he, hx⟩
  | msgEnc =>
    rcases exec_msgEnc s with ⟨hm, hv, hx⟩ | ⟨_, hx⟩ | ⟨_, _, _, hx⟩
    · exact .inl ⟨_, .msgEnc hm hv, hx⟩
    · exact .inr ⟨_, by simp [Instr.errors], hx⟩
    · exact .inr ⟨_, by simp [Instr.errors], hx⟩
  | xmaBuild => exact .inl ⟨_, .xmaBuild, exec_xmaBuild s⟩
  | cmdIllegal => exact .inr ⟨_, by simp [Instr.errors], exec_cmdIllegal s⟩
  | cmdIllegalRsv rsv op =>
    refine .inr ⟨.cmdIllegal, by simp [Instr.errors], ?_⟩
    rw [op_cmdIllegalRsv]
    exact exec_cmdIllegalRsv s rsv op

/-- The next state of a command, by the way it ended. -/
theorem exec_next_cases {i : Instr} {s t : State} (h : exec i s = .next t) :
    (∃ u, CommandResult s i u ∧ t = u.afterOk i.op) ∨ ∃ e ∈ i.errors, t = s.afterError e i.op := by
  rcases exec_cases i s with ⟨u, hu, hx⟩ | ⟨e, he, hx⟩
  · exact .inl ⟨u, hu, by cases hx.symm.trans h; rfl⟩
  · exact .inr ⟨e, he, by cases hx.symm.trans h; rfl⟩

/-- A command that reports no error has written its results. -/
theorem exec_success {i : Instr} {s t : State} (h : exec i s = .next t) (hok : t.status.getLsbD 1 = false) :
    ∃ u, CommandResult s i u ∧ t = u.afterOk i.op := by
  rcases exec_next_cases h with hu | ⟨e, _, rfl⟩
  · exact hu
  · cases (statusError_getLsbD_err e i.op).symm.trans hok

theorem CommandResult.cmd {s u : State} {i : Instr} (h : CommandResult s i u) : u.cmd = s.cmd := by
  cases h <;> simp

/-- No command writes CMD (R24). -/
theorem exec_cmd {i : Instr} {s t : State} (h : exec i s = .next t) : t.cmd = s.cmd := by
  rcases exec_next_cases h with ⟨u, hu, rfl⟩ | ⟨e, _, rfl⟩
  · simpa [State.afterOk] using hu.cmd
  · simp [State.afterError]

/-- An issue leaves its word in CMD (R24, R176). -/
theorem issueCommand_cmd {w : Byte} {s t : State} (h : issueCommand w s = .next t) : t.cmd = w :=
  (exec_cmd h).trans (writeReg_cmd_self s w)

/-! ### What a decoder's success says of its record -/

/-- The class and method bits of a type field with no reserved bit set, put together again (R75). -/
theorem typeField_of_parts (t : BitVec 16) (h : t.extractLsb' 14 2 = 0) : typeField (typeClass t) (typeMethod t) = t := by
  have hres : 0b00#2 = t.extractLsb' 14 2 := h.symm
  rw [typeField, hres]
  apply BitVec.eq_of_getLsbD_eq
  intro i hi
  simp only [typeClass, typeMethod, BitVec.getLsbD_append, BitVec.getLsbD_extractLsb']
  interval_cases i <;> simp

/-- A type field that decodes has a known method, and encoding what it decodes to gives it back (R103). -/
theorem typeDecodeF_ok_known {t : BitVec 16} {c : BitVec 2} {m : BitVec 12} (h : typeDecodeF t = .ok (c, m)) :
    knownMethod m = true ∧ typeEncodeF c m = .ok t := by
  obtain ⟨hres, rfl, rfl, hk⟩ := (typeDecodeF_ok_iff t c m).1 h
  exact ⟨hk, by rw [typeEncodeF_known _ _ hk, typeField_of_parts t hres]⟩

/-- A header that decodes has a known method, the type field of its class and method, and the constant cookie (R121). -/
theorem headerDecodeF_ok_known {B : Nat → Byte} {n : Nat} {h : Header} (hd : headerDecodeF B n = .ok h) :
    knownMethod h.method = true ∧ typeEncodeF h.cls h.method = .ok h.type ∧ h.cookie = magicCookie := by
  obtain ⟨_, ht, hk, htype, _, hcookie, _⟩ := (headerDecodeF_ok_iff B n h).1 hd
  rw [htype, hcookie]
  exact ⟨(typeDecodeF_ok_known ht).1, (typeDecodeF_ok_known ht).2, hk⟩

/-! ### What a step can do -/

/-- The state with another host beside it: the block, the parameter and the reset count stay. -/
def State.withHost (s : State) (h : HostSide) : State := { s with host := h }

section
variable (s : State) (h : HostSide)

@[simp] theorem withHost_status : (s.withHost h).status = s.status := rfl
@[simp] theorem withHost_cmd : (s.withHost h).cmd = s.cmd := rfl
@[simp] theorem withHost_cfg : (s.withHost h).cfg = s.cfg := rfl
@[simp] theorem withHost_epoch : (s.withHost h).epoch = s.epoch := rfl
@[simp] theorem withHost_readReg (r : Reg) : (s.withHost h).readReg r = s.readReg r := by cases r <;> rfl
@[simp] theorem withHost_buf (sp : Space) : (s.withHost h).buf sp = s.buf sp := by cases sp <;> rfl
@[simp] theorem withHost_sizeOf (sp : Space) : (s.withHost h).sizeOf sp = s.sizeOf sp := by cases sp <;> rfl
@[simp] theorem withHost_byte (sp : Space) (i : Nat) : (s.withHost h).byte sp i = s.byte sp i := by cases sp <;> rfl

end

/-- A statement that leaves the block changes the host at most. -/
theorem runStmt_leavesBlock {st : Stmt} {s t : State} (hst : st.leavesBlock = true) (h : runStmt st s = .next t) :
    ∃ h', t = s.withHost h' := by
  cases st with
  | issue | wr | wrb | rx | reset => cases hst
  | rd idx =>
    simp only [runStmt, runRd] at h
    split at h <;> cases h
    exact ⟨_, rfl⟩
  | rdb sp i =>
    simp only [runStmt, runRdb] at h
    split at h <;> cases h
    exact ⟨_, rfl⟩
  | beq o v l =>
    obtain ⟨p, rfl⟩ := runBranch_next o _ l s t h
    exact ⟨_, rfl⟩
  | bne o v l =>
    obtain ⟨p, rfl⟩ := runBranch_next o _ l s t h
    exact ⟨_, rfl⟩
  | jmp l =>
    obtain ⟨p, rfl⟩ := runJmp_next l s t h
    exact ⟨_, rfl⟩
  | send | label | stop | wrv | cpyxma | peer => cases h; exact ⟨_, rfl⟩

theorem runIdle_next {s t : State} (h : runIdle s = .next t) : ∃ h', t = s.withHost h' := by
  unfold runIdle at h
  split at h <;> cases h <;> exact ⟨_, rfl⟩

/-- A host register write that is not refused issues a command, at register 0x00, or writes another register (R171). -/
theorem runWr_next {idx : Byte} {v : Nat} {s t : State} (h : runWr idx v s = .next t) :
    (idx = 0x00 ∧ v < 256 ∧ issueCommand (BitVec.ofNat 8 v) s = .next t) ∨ ∃ r, r ≠ .cmd ∧ t = s.hostWrite r v := by
  unfold runWr at h
  split at h
  · cases h
  · rename_i r hr
    split at h
    · rename_i hv
      split at h
      · rename_i hc
        subst hc
        exact .inl ⟨(index_of_ofIndex idx .cmd hr).symm, hv, h⟩
      · rename_i hc
        cases h
        exact .inr ⟨r, hc, rfl⟩
    · cases h

/-- A host byte write that is not refused writes the byte, or nothing in OBUF (R173). -/
theorem runWrb_next {sp : Space} {i : Nat} {b : Byte} {s t : State} (h : runWrb sp i b s = .next t) :
    t = s ∨ (i < s.sizeOf sp ∧ t = s.memWrite sp i [b]) := by
  unfold runWrb at h
  split at h
  · rename_i hi
    cases sp <;> cases h
    · exact .inr ⟨hi, rfl⟩
    · exact .inr ⟨hi, rfl⟩
    · exact .inl rfl
  · cases h

/-- All that a step can do, by the statement it ran. -/
inductive StepEffect (s : State) : State → Prop
  | hostOnly (h : HostSide) : StepEffect s (s.withHost h)
  | issue {w : Byte} {rest : List Stmt} {t : State} (hrest : s.host.rest = .issue w :: rest)
      (hx : issueCommand w (s.withRest rest) = .next t) : StepEffect s t
  | writeCmd {v : Nat} {rest : List Stmt} {t : State} (hrest : s.host.rest = .wr 0x00 v :: rest) (hv : v < 256)
      (hx : issueCommand (BitVec.ofNat 8 v) (s.withRest rest) = .next t) : StepEffect s t
  | writeReg (rest : List Stmt) {r : Reg} (v : Nat) (hr : r ≠ .cmd) : StepEffect s ((s.withRest rest).hostWrite r v)
  | writeByte (rest : List Stmt) {sp : Space} {i : Nat} (b : Byte) (hi : i < s.sizeOf sp) :
      StepEffect s ((s.withRest rest).memWrite sp i [b])
  | arrival (rest : List Stmt) (bs : List Byte) (sender : Option Peer) :
      StepEffect s ((((s.withRest rest).receive bs).writeSender sender).withSender sender)
  | reset {rest : List Stmt} (hrest : s.host.rest = .reset :: rest) : StepEffect s (s.withRest rest).applyReset

theorem step_effect {s t : State} (h : step s = .next t) : StepEffect s t := by
  cases hrest : s.host.rest with
  | nil =>
    rw [step_idle s hrest] at h
    obtain ⟨h', rfl⟩ := runIdle_next h
    exact .hostOnly h'
  | cons st rest =>
    rw [step_stmt s st rest hrest] at h
    cases hst : st.leavesBlock with
    | true =>
      obtain ⟨h', rfl⟩ := runStmt_leavesBlock hst h
      exact .hostOnly h'
    | false =>
      cases st with
      | rd | rdb | send | beq | bne | jmp | label | stop | wrv | cpyxma | peer => cases hst
      | issue w => exact .issue hrest h
      | wr idx v =>
        rcases runWr_next h with ⟨rfl, hv, hx⟩ | ⟨r, hr, rfl⟩
        · exact .writeCmd hrest hv hx
        · exact .writeReg rest v hr
      | wrb sp i b =>
        rcases runWrb_next h with rfl | ⟨hi, rfl⟩
        · exact .hostOnly _
        · exact .writeByte rest b (by simpa using hi)
      | rx bs sender => cases h; exact .arrival rest bs sender
      | reset => cases h; exact .reset hrest

/-- A command word at the head of the host's list: CMD takes it and its command runs (R176). -/
theorem step_issue {s : State} {w : Byte} {rest : List Stmt} (hrest : s.host.rest = .issue w :: rest) :
    step s = exec (decodeByte w) ((s.withRest rest).writeReg .cmd w) := step_stmt s _ rest hrest

/-- A host write to register 0x00 is the issue of the value (R176). -/
theorem runWr_cmd {v : Nat} {s : State} (hv : v < 256) : runWr 0x00 v s = issueCommand (BitVec.ofNat 8 v) s :=
  if_pos hv

theorem decodeByte_of_decode {w : Byte} {i : Instr} (h : decode [w] = .ok (i, [])) : decodeByte w = i := by
  cases h; rfl

/-! ### STATUS and CMD under the host's writes -/

/-- A host register write by the host column of R42: nothing, the clamped IBUF_LEN, or the value in its register. -/
theorem hostWrite_cases (s : State) (r : Reg) (v : Nat) :
    (r ∈ [Reg.status, .obufLen, .xmaOut] ∧ s.hostWrite r v = s) ∨
      (r = .ibufLen ∧ s.hostWrite r v = s.writeReg .ibufLen (BitVec.ofNat 16 (min v s.cfg.rxBufSize))) ∨
      (r ∉ [Reg.status, .ibufLen, .obufLen, .xmaOut] ∧ s.hostWrite r v = s.writeReg r (BitVec.ofNat r.width v)) := by
  cases r with
  | status | obufLen | xmaOut => exact .inl ⟨by decide, rfl⟩
  | ibufLen => exact .inr (.inl ⟨rfl, rfl⟩)
  | cmd | type | cls | method | msgLen | cookie | tid | attrPresent | attrType | attrLen | valCnt | peerIp | peerPort =>
    exact .inr (.inr ⟨by decide, rfl⟩)

/-- A host write never reaches STATUS, which is read-only (R42). -/
@[simp] theorem hostWrite_status (s : State) (r : Reg) (v : Nat) : (s.hostWrite r v).status = s.status := by
  rcases hostWrite_cases s r v with ⟨_, h⟩ | ⟨_, h⟩ | ⟨hr, h⟩ <;> rw [h]
  · simp
  · have hne : r ≠ .status := fun e => hr (by simp [e])
    simp [hne]

theorem hostWrite_cmd (s : State) {r : Reg} (v : Nat) (hr : r ≠ .cmd) : (s.hostWrite r v).cmd = s.cmd :=
  readReg_hostWrite_ne s r .cmd v (Ne.symm hr)

@[simp] theorem receive_status (s : State) (bs : List Byte) : (s.receive bs).status = s.status := by simp [State.receive]

@[simp] theorem receive_cmd (s : State) (bs : List Byte) : (s.receive bs).cmd = s.cmd := by simp [State.receive]

@[simp] theorem writeSender_status (s : State) (o : Option Peer) : (s.writeSender o).status = s.status :=
  readReg_writeSender_ne s o .status (by simp)

@[simp] theorem writeSender_cmd (s : State) (o : Option Peer) : (s.writeSender o).cmd = s.cmd :=
  readReg_writeSender_ne s o .cmd (by simp)

/-- A length within RX_BUF_SIZE stays within it in a length register, of whatever width. -/
theorem toNat_ofNat_le {n m : Nat} (w : Nat) (h : n ≤ m) : (BitVec.ofNat w n).toNat ≤ m := by
  rw [BitVec.toNat_ofNat]
  exact (Nat.mod_le _ _).trans h

/-! ### The invariant's clauses about buffers, lengths and XMA_OUT -/

/-- XMA_OUT as R40 has it: the reset value, or a value that begins 0x00 0x01. -/
def XmaOk (v : BitVec 64) : Prop := v = 0 ∨ v.extractLsb' 48 16 = 0x0001#16

/-- The invariant without its two clauses about STATUS and CMD, which a command issue breaks between its CMD write and its STATUS write. -/
structure DataInv (s : State) : Prop where
  cfg     : s.cfg.ok
  bufs    : ∀ sp, BufOk s sp
  ibufLen : s.ibufLen.toNat ≤ s.cfg.rxBufSize
  obufLen : s.obufLen.toNat ≤ s.cfg.rxBufSize
  xmaOut  : XmaOk s.xmaOut

theorem Inv.data {s : State} (h : Inv s) : DataInv s := ⟨h.cfg, h.bufs, h.ibufLen, h.obufLen, h.xmaOut⟩

theorem DataInv.inv {s : State} (h : DataInv s) (hst : StatusLegal s.status) (hop : statusLastOp s.status = cmdOp s.cmd) : Inv s :=
  ⟨h.cfg, h.bufs, h.ibufLen, h.obufLen, hst, hop, h.xmaOut⟩

/-- A change that keeps STATUS and CMD keeps the invariant if it keeps the rest of it. -/
theorem Inv.of_data {s t : State} (hs : Inv s) (ht : DataInv t) (hst : t.status = s.status) (hcmd : t.cmd = s.cmd) : Inv t :=
  ht.inv (hst ▸ hs.status) (by rw [hst, hcmd]; exact hs.lastOp)

namespace DataInv

variable {s : State}

theorem withHost (hs : DataInv s) (h : HostSide) : DataInv (s.withHost h) :=
  ⟨hs.cfg, fun sp => by simpa [BufOk] using hs.bufs sp, hs.ibufLen, hs.obufLen, hs.xmaOut⟩

/-- A register may be written if the value keeps the clause about that register. -/
theorem writeReg_of (hs : DataInv s) (r : Reg) (v : BitVec r.width) (hi : (s.writeReg r v).ibufLen.toNat ≤ s.cfg.rxBufSize)
    (ho : (s.writeReg r v).obufLen.toNat ≤ s.cfg.rxBufSize) (hx : XmaOk (s.writeReg r v).xmaOut) : DataInv (s.writeReg r v) where
  cfg := by simpa using hs.cfg
  bufs := fun sp => bufOk_writeReg s sp r v (hs.bufs sp)
  ibufLen := by simpa using hi
  obufLen := by simpa using ho
  xmaOut := hx

/-- The registers the clauses do not speak of may take any value. -/
theorem writeReg (hs : DataInv s) (r : Reg) (v : BitVec r.width) (hr : r ∉ [Reg.ibufLen, .obufLen, .xmaOut] := by decide) :
    DataInv (s.writeReg r v) := by
  simp only [List.mem_cons, List.not_mem_nil, or_false, not_or] at hr
  obtain ⟨hi, ho, hx⟩ := hr
  exact hs.writeReg_of r v (by simpa [hi] using hs.ibufLen) (by simpa [ho] using hs.obufLen) (by simpa [hx] using hs.xmaOut)

theorem writeIbufLen (hs : DataInv s) (v : BitVec 16) (hv : v.toNat ≤ s.cfg.rxBufSize) : DataInv (s.writeReg .ibufLen v) :=
  hs.writeReg_of .ibufLen v hv hs.obufLen hs.xmaOut

theorem writeObufLen (hs : DataInv s) (v : BitVec 16) (hv : v.toNat ≤ s.cfg.rxBufSize) : DataInv (s.writeReg .obufLen v) :=
  hs.writeReg_of .obufLen v hs.ibufLen hv hs.xmaOut

theorem writeXmaOut (hs : DataInv s) (v : BitVec 64) (hv : XmaOk v) : DataInv (s.writeReg .xmaOut v) :=
  hs.writeReg_of .xmaOut v hs.ibufLen hs.obufLen hv

/-- Bytes may be written within a space. -/
theorem memWrite (hs : DataInv s) (sp : Space) (a : Nat) (bs : List Byte) (ha : a + bs.length ≤ s.sizeOf sp) :
    DataInv (s.memWrite sp a bs) where
  cfg := by simpa using hs.cfg
  bufs := fun sp' => bufOk_memWrite s sp sp' a bs ha (hs.bufs sp')
  ibufLen := by simpa using hs.ibufLen
  obufLen := by simpa using hs.obufLen
  xmaOut := by simpa using hs.xmaOut

/-! The updates of the commands and of the host, from the ones above. -/

theorem writeOutput (hs : DataInv s) (bs : List Byte) (hbs : bs.length ≤ s.cfg.rxBufSize) : DataInv (s.writeOutput bs) :=
  (hs.memWrite .obuf 0 bs (by simpa using hbs)).writeObufLen _ (by simpa using toNat_ofNat_le 16 hbs)

theorem writeHeader (hs : DataInv s) (h : Header) : DataInv (s.writeHeader h) :=
  (((((hs.writeReg .type h.type).writeReg .cls h.cls).writeReg .method h.method).writeReg .msgLen h.msgLen).writeReg
    .cookie h.cookie).writeReg .tid h.tid

theorem writeAttr (hs : DataInv s) (r : Message) (hr : r.value.length ≤ s.sizeOf .val) : DataInv (s.writeAttr r) :=
  ((((hs.writeReg .attrPresent r.present).writeReg .attrType r.atype).writeReg .attrLen r.alen).writeReg
    .valCnt (BitVec.ofNat 16 r.value.length)).memWrite .val 0 r.value (by simpa using hr)

theorem receive (hs : DataInv s) (bs : List Byte) : DataInv (s.receive bs) :=
  (hs.memWrite .ibuf 0 (bs.take s.cfg.rxBufSize) (by simp)).writeIbufLen _
    (by simpa using toNat_ofNat_le 16 (Nat.min_le_right bs.length s.cfg.rxBufSize))

theorem writeSender (hs : DataInv s) (o : Option Peer) : DataInv (s.writeSender o) := by
  cases o with
  | none => exact hs
  | some p => exact (hs.writeReg .peerIp p.ip).writeReg .peerPort p.port

/-- A host register write: IBUF_LEN is clamped, OBUF_LEN and XMA_OUT are read-only (R36, R42). -/
theorem hostWrite (hs : DataInv s) (r : Reg) (v : Nat) : DataInv (s.hostWrite r v) := by
  rcases hostWrite_cases s r v with ⟨_, h⟩ | ⟨_, h⟩ | ⟨hr, h⟩ <;> rw [h]
  · exact hs
  · exact hs.writeIbufLen _ (toNat_ofNat_le 16 (Nat.min_le_right v s.cfg.rxBufSize))
  · exact hs.writeReg r _ (fun hm => hr (List.mem_cons_of_mem _ hm))

end DataInv

/-! ### The invariant under a command -/

/-- The value XMA_BUILD writes begins 0x00 0x01 (R160). -/
theorem xmaOk_xmaBuildF (ip : BitVec 32) (port : BitVec 16) : XmaOk (be64Of (xmaBuildF ip port)) := by
  right
  rw [be64Of_xmaBuildF]
  apply BitVec.eq_of_getLsbD_eq
  intro i hi
  have h1 : ¬ 48 + i < 32 := by omega
  have h2 : ¬ 48 + i - 32 < 16 := by omega
  have h3 : 48 + i - 32 - 16 = i := by omega
  simp only [BitVec.getLsbD_extractLsb', BitVec.getLsbD_append, hi, h1, h2, h3, decide_true, if_false, Bool.true_and]

/-- The message MSG_ENC emits fits OBUF when its value fits VAL (R53). -/
theorem length_messageBytes_le {s : State} (hcfg : s.cfg.ok) (hv : ¬ (s.attrPresent = 1 ∧ s.valMax < s.valCnt.toNat)) :
    s.messageBytes.length ≤ s.cfg.rxBufSize := by
  obtain ⟨hmin, _⟩ := hcfg
  rw [valMax_eq] at hv
  rw [length_messageBytes]
  split
  · rename_i hp
    have : ¬ s.cfg.rxBufSize - 24 < s.valCnt.toNat := fun h => hv ⟨hp, h⟩
    omega
  · omega

theorem CommandResult.data {s u : State} {i : Instr} (h : CommandResult s i u) (hs : DataInv s) : DataInv u := by
  cases h with
  | typeEnc => exact hs.writeReg .type _
  | typeDec => exact (hs.writeReg .cls _).writeReg .method _
  | hdrDec => exact hs.writeHeader _
  | hdrEnc => exact hs.writeOutput _ (by have := hs.cfg.1; rw [length_headerBytes]; omega)
  | @msgDec r hd =>
    refine (hs.writeHeader r.header).writeAttr r ?_
    have hlen := length_value_of_messageDecodeF _ _ _ hd
    have := hs.ibufLen
    show r.value.length ≤ s.sizeOf .val
    rw [sizeOf_val]
    omega
  | msgEnc _ hv => exact hs.writeOutput _ (length_messageBytes_le hs.cfg hv)
  | xmaBuild => exact hs.writeXmaOut _ (xmaOk_xmaBuildF _ _)

/-- A command leaves the whole invariant, whatever STATUS was, when CMD holds a word with its OP. -/
theorem DataInv.exec {i : Instr} {s t : State} (hs : DataInv s) (hop : i.op = cmdOp s.cmd) (h : exec i s = .next t) : Inv t := by
  rcases exec_next_cases h with ⟨u, hu, rfl⟩ | ⟨e, _, rfl⟩
  · refine ((hu.data hs).writeReg .status _).inv (.inr (.inl ⟨i.op, rfl⟩)) ?_
    simp [hu.cmd, hop]
  · refine (hs.writeReg .status _).inv (.inr (.inr ⟨e, i.op, rfl⟩)) ?_
    simp [hop]

/-- A command issue leaves the whole invariant: CMD holds the word whose OP the command reports. -/
theorem DataInv.issueCommand {w : Byte} {s t : State} (hs : DataInv s) (h : issueCommand w s = .next t) : Inv t :=
  (hs.writeReg .cmd w).exec (op_decodeByte w) h

theorem Inv.applyReset {s : State} (hs : Inv s) : Inv s.applyReset where
  cfg := hs.cfg
  bufs := fun sp => by cases sp <;> exact ⟨rfl, rfl⟩
  ibufLen := Nat.zero_le _
  obufLen := Nat.zero_le _
  status := .inl rfl
  lastOp := show statusLastOp State.reset.status = cmdOp State.reset.cmd by decide
  xmaOut := .inl rfl

/-! ### The statements -/

/-- Settles O56, by the effects a step can have. -/
theorem everyStepKeepsTheInvariant : Obligations.EveryStepKeepsTheInvariant := by
  intro s t hs hstep
  have hrest : ∀ rest, Inv (s.withRest rest) := fun rest => hs.of_data (hs.data.withHost _) rfl rfl
  cases step_effect hstep with
  | hostOnly h => exact hs.of_data (hs.data.withHost h) rfl rfl
  | issue _ hx => exact (hrest _).data.issueCommand hx
  | writeCmd _ _ hx => exact (hrest _).data.issueCommand hx
  | writeReg rest v hr => exact hs.of_data ((hrest rest).data.hostWrite _ v) (by simp) (by simp [hostWrite_cmd _ _ hr])
  | writeByte rest b hi => exact hs.of_data ((hrest rest).data.memWrite _ _ [b] (by simpa using hi)) (by simp) (by simp)
  | arrival rest bs sender =>
    exact hs.of_data ((((hrest rest).data.receive bs).writeSender sender).withHost _) (by simp) (by simp)
  | reset => exact (hrest _).applyReset

/-- Settles O34: both endings of a command write a STATUS word that reports it. -/
theorem everyCommandCompletesAndReports : Obligations.EveryCommandCompletesAndReports := by
  intro i s
  rcases exec_cases i s with ⟨u, _, hx⟩ | ⟨e, he, hx⟩
  · exact ⟨_, hx, reportsCommand_statusOk i.op⟩
  · exact ⟨_, hx, reportsCommand_statusError e i.op (fun h => fmtClassUnknown_not_mem_errors i (h ▸ he))⟩

/-- Settles O40: the record a decoder succeeds with has passed TypeDecodeF, and from a datagram the cookie check. -/
theorem decodersLeaveKnownMethodAndCookie : Obligations.DecodersLeaveKnownMethodAndCookie := by
  intro i s t hi hx hok
  obtain ⟨u, hu, rfl⟩ := exec_success hx hok
  cases hu with
  | typeDec hd =>
    obtain ⟨hk, he⟩ := typeDecodeF_ok_known hd
    exact ⟨hk, he, fun h => absurd rfl h⟩
  | hdrDec hd =>
    obtain ⟨hk, he, hc⟩ := headerDecodeF_ok_known hd
    exact ⟨hk, he, fun _ => hc⟩
  | msgDec hd =>
    obtain ⟨hk, he, hc⟩ := headerDecodeF_ok_known (messageDecodeF_ok _ _ _ hd).1
    exact ⟨hk, he, fun _ => hc⟩
  | typeEnc | hdrEnc | msgEnc | xmaBuild => simp at hi

/-- Settles O48: the statement changes the host at most. -/
theorem readsAndControlFlowLeaveTheBlock : Obligations.ReadsAndControlFlowLeaveTheBlock := by
  intro s t st rest hrest hst hstep
  rw [step_stmt s st rest hrest] at hstep
  obtain ⟨h, rfl⟩ := runStmt_leavesBlock hst hstep
  exact ⟨fun r _ => by simp, fun sp i => by simp, by simp, by simp⟩

/-- Settles O50: of the effects a step can have, only command issues and the reset reach STATUS or CMD. -/
theorem onlyCommandIssuesWriteStatusAndCmd : Obligations.OnlyCommandIssuesWriteStatusAndCmd := by
  intro s t hstep hne
  cases step_effect hstep with
  | issue hrest hx => exact .inl ⟨_, _, hrest, issueCommand_cmd hx⟩
  | @writeCmd v _ _ hrest hv hx =>
    refine .inr (.inl ⟨_, _, hrest, ?_⟩)
    rw [issueCommand_cmd hx, BitVec.toNat_ofNat, Nat.mod_eq_of_lt hv]
  | reset hrest => exact .inr (.inr ⟨_, hrest⟩)
  | hostOnly | writeByte | arrival => simp at hne
  | writeReg rest v hr => simp [hostWrite_cmd _ _ hr] at hne

/-- Settles O6: the statement taken off is the issue, and the word's own decoding is what the issue runs. -/
theorem stepRunsTheDecodedCommand : Obligations.StepRunsTheDecodedCommand := by
  refine ⟨fun s w rest i hrest hd => ?_, fun s v rest i hrest hv hd => ?_, fun s w i hd => ?_⟩
  · rw [step_issue hrest, decodeByte_of_decode hd]
  · rw [step_stmt s _ rest hrest, runStmt, runWr_cmd hv, issueCommand, decodeByte_of_decode hd]
    rfl
  · have hw : BitVec.ofNat 8 (w.toNat % 2 ^ 8) = w := by rw [Nat.mod_eq_of_lt w.isLt, BitVec.ofNat_toNat, BitVec.setWidth_eq]
    rw [step_issue (withFetchWord_rest s 8 w.toNat), hw, decodeByte_of_decode hd]
    rfl

/-- Settles O52: the reset state has the values of R42. -/
theorem registersAtReset : Obligations.RegistersAtReset := by
  unfold Obligations.RegistersAtReset
  exact ⟨rfl, rfl, rfl, rfl, rfl, rfl, rfl, rfl, rfl, rfl, rfl, rfl, rfl, rfl, rfl, rfl, rfl⟩

end Sys2Proof.Machine
end

section
/-! PROOFS. The family 20_memory.md: the value of a multi-byte field, and the big-endian reads and writes that have it. -/

namespace Sys2Proof.Machine

/-! ### The sum of R54 -/

@[simp] theorem fieldValue_one (B : Nat → Byte) (a : Nat) : fieldValue B a 1 = (B a).toNat := by simp [fieldValue]

/-- A field of m + n bytes is its first m bytes, shifted past the last n, and its last n bytes. -/
theorem fieldValue_add (B : Nat → Byte) (a m n : Nat) :
    fieldValue B a (m + n) = fieldValue B a m * 2 ^ (8 * n) + fieldValue B (a + m) n := by
  have hlast : ∀ k, a + (m + k) = a + m + k ∧ m + n - 1 - (m + k) = n - 1 - k := fun k => by omega
  have hfirst : ∀ k ∈ List.range m, (B (a + k)).toNat * 2 ^ (8 * (m + n - 1 - k)) =
      (B (a + k)).toNat * 2 ^ (8 * (m - 1 - k)) * 2 ^ (8 * n) := fun k hk => by
    have hk : k < m := List.mem_range.1 hk
    rw [Nat.mul_assoc, ← Nat.pow_add, show 8 * (m + n - 1 - k) = 8 * (m - 1 - k) + 8 * n by omega]
  simp only [fieldValue, List.range_add, List.map_append, List.map_map, List.sum_append, Function.comp_def, hlast,
    List.map_congr_left hfirst, List.sum_map_mul_right]

/-! ### Fields read -/

/-- Two adjacent fields put together are the field of all their bytes. -/
theorem toNat_append_fields {B : Nat → Byte} {a m n w : Nat} {x : BitVec w} {y : BitVec (8 * n)}
    (hx : x.toNat = fieldValue B a m) (hy : y.toNat = fieldValue B (a + m) n) : (x ++ y).toNat = fieldValue B a (m + n) := by
  rw [BitVec.toNat_append, ← Nat.shiftLeft_add_eq_or_of_lt y.isLt, Nat.shiftLeft_eq, hx, hy, fieldValue_add]

theorem toNat_be16At (B : Nat → Byte) (a : Nat) : (be16At B a).toNat = fieldValue B a 2 :=
  toNat_append_fields (n := 1) (fieldValue_one B a).symm (fieldValue_one B (a + 1)).symm

theorem toNat_be32At (B : Nat → Byte) (a : Nat) : (be32At B a).toNat = fieldValue B a 4 :=
  have h3 := toNat_append_fields (n := 1) (toNat_be16At B a) (fieldValue_one B (a + 2)).symm
  toNat_append_fields (n := 1) h3 (fieldValue_one B (a + 3)).symm

theorem toNat_be96At (B : Nat → Byte) (a : Nat) : (be96At B a).toNat = fieldValue B a 12 :=
  have h8 := toNat_append_fields (n := 4) (toNat_be32At B a) (toNat_be32At B (a + 4))
  toNat_append_fields (n := 4) h8 (toNat_be32At B (a + 8))

/-! ### Fields written are read back -/

@[simp] theorem be16At_bytes16 (v : BitVec 16) : be16At (bytesOf (bytes16 v)) 0 = v := be16_split v

@[simp] theorem be32At_bytes32 (v : BitVec 32) : be32At (bytesOf (bytes32 v)) 0 = v := be32_split v

@[simp] theorem be96At_bytes96 (v : BitVec 96) : be96At (bytesOf (bytes96 v)) 0 = v := by
  have h0 : be32At (bytesOf (bytes96 v)) 0 = v.extractLsb' 64 32 := be32_split _
  have h4 : be32At (bytesOf (bytes96 v)) 4 = v.extractLsb' 32 32 := be32_split _
  have h8 : be32At (bytesOf (bytes96 v)) 8 = v.extractLsb' 0 32 := be32_split _
  rw [be96At, h0, h4, h8, be96_split]

/-! ### The statement -/

/-- Settles O12: a field read has the sum's value byte by byte, and a value written is the field read back. -/
theorem wireFieldsAreBigEndian : Obligations.WireFieldsAreBigEndian := by
  refine ⟨fun B a => ⟨toNat_be16At B a, toNat_be32At B a, toNat_be96At B a⟩, fun v => ?_, fun v => ?_, fun v => ?_⟩
  · rw [← toNat_be16At, be16At_bytes16]
  · rw [← toNat_be32At, be32At_bytes32]
  · rw [← toNat_be96At, be96At_bytes96]

end Sys2Proof.Machine
end

section
/-! PROOFS. The family 30_encoding.md: the command byte and its row, the illegal words, the host's control flow and pseudo-instructions, and what
the commands read and write. -/

namespace Sys2Proof.Machine

/-! ### The command byte: RSV and OP put together and taken apart (R70) -/

@[simp] theorem cmdRsv_append (rsv : BitVec 5) (op : BitVec 3) : cmdRsv (rsv ++ op) = rsv := BitVec.extractLsb'_append_eq_left

@[simp] theorem cmdOp_append (rsv : BitVec 5) (op : BitVec 3) : cmdOp (rsv ++ op) = op := BitVec.extractLsb'_append_eq_right

theorem cmdRsv_append_cmdOp (w : Byte) : cmdRsv w ++ cmdOp w = w := BitVec.extractLsb'_append_extractLsb'

theorem toNat_cmdOp (w : Byte) : (cmdOp w).toNat = w.toNat % 8 := by simp [cmdOp, BitVec.extractLsb'_toNat]

/-- A byte has RSV set, or it is its OP alone. -/
theorem word_cases (w : Byte) : cmdRsv w ≠ 0 ∨ ∃ op : BitVec 3, w = 0#5 ++ op := by
  by_cases h : cmdRsv w = 0
  · exact .inr ⟨cmdOp w, by rw [← cmdRsv_append_cmdOp w, h, cmdOp_append]; rfl⟩
  · exact .inl h

theorem decodeByte_rsv {w : Byte} (h : cmdRsv w ≠ 0) : decodeByte w = .cmdIllegalRsv (cmdRsv w) (cmdOp w) := if_neg h

/-! ### Decoding and encoding are inverse (R71, R72) -/

theorem decodeByte_encodeByte {i : Instr} (h : i.wf = true) : decodeByte (encodeByte i) = i := by
  cases i with
  | cmdIllegalRsv rsv op =>
    have hne : cmdRsv (rsv ++ op) ≠ 0 := by simpa [Instr.wf] using h
    rw [encodeByte, decodeByte_rsv hne, cmdRsv_append, cmdOp_append]
  | typeEnc | typeDec | hdrDec | hdrEnc | msgDec | msgEnc | xmaBuild | cmdIllegal => rfl

theorem wf_decodeByte (w : Byte) : (decodeByte w).wf = true := by
  rcases word_cases w with h | ⟨op, rfl⟩
  · rw [decodeByte_rsv h]
    simpa [Instr.wf] using h
  · revert op; decide

theorem encodeByte_decodeByte (w : Byte) : encodeByte (decodeByte w) = w := by
  rcases word_cases w with h | ⟨op, rfl⟩
  · rw [decodeByte_rsv h, encodeByte, cmdRsv_append_cmdOp]
  · revert op; decide

/-- Settles O2: the one byte an instruction encodes to decodes to it. -/
theorem decodeOfEncodeGivesTheCommand : Obligations.DecodeOfEncodeGivesTheCommand := by
  intro i rest hi
  show Except.ok (decodeByte (encodeByte i), rest) = _
  rw [decodeByte_encodeByte hi]

/-- Settles O3: decoding takes the first byte, and the row it selects encodes to that byte. -/
theorem encodeOfDecodeGivesTheBytes : Obligations.EncodeOfDecodeGivesTheBytes := by
  intro bs i rest h
  cases bs with
  | nil => cases h
  | cons w bs =>
    cases h
    exact ⟨wf_decodeByte w, by rw [encode, encodeByte_decodeByte]; rfl⟩

/-- Settles O1: the rows of the opcode map, by evaluation. -/
theorem commandWordsDecodeByTheOpcodeMap : Obligations.CommandWordsDecodeByTheOpcodeMap := by
  unfold Obligations.CommandWordsDecodeByTheOpcodeMap
  decide

/-! ### The same registers but some -/

theorem SameRegsBut.refl (rs : List Reg) (s : State) : SameRegsBut rs s s := fun _ _ => rfl

/-- The same registers but some, after one of those is written. -/
theorem SameRegsBut.writeReg {rs : List Reg} {s u : State} (h : SameRegsBut rs s u) (r : Reg) (v : BitVec r.width)
    (hr : r ∈ rs := by decide) : SameRegsBut rs s (u.writeReg r v) := by
  intro q hq
  have hne : q ≠ r := fun e => hq (e ▸ hr)
  rw [readReg_writeReg_ne u r q v hne, h q hq]

theorem SameRegsBut.memWrite {rs : List Reg} {s u : State} (h : SameRegsBut rs s u) (sp : Space) (a : Nat) (bs : List Byte) :
    SameRegsBut rs s (u.memWrite sp a bs) := fun q hq => (readReg_memWrite u sp a bs q).trans (h q hq)

theorem SameRegsBut.writeHeader {rs : List Reg} {s u : State} (hu : SameRegsBut rs s u) (h : Header)
    (hrs : [.type, .cls, .method, .msgLen, .cookie, .tid] ⊆ rs := by decide) : SameRegsBut rs s (u.writeHeader h) := by
  simp only [List.cons_subset] at hrs
  obtain ⟨htype, hcls, hmethod, hlen, hcookie, htid, _⟩ := hrs
  exact (((((hu.writeReg .type _ htype).writeReg .cls _ hcls).writeReg .method _ hmethod).writeReg .msgLen _ hlen).writeReg
    .cookie _ hcookie).writeReg .tid _ htid

/-! ### The illegal words (R72) -/

/-- A byte selects a row of illegal words exactly when its OP is 111 or its RSV is not 0. -/
theorem cmdIllegal_mem_errors_decodeByte_iff (w : Byte) :
    CmdError.cmdIllegal ∈ (decodeByte w).errors ↔ cmdOp w = 0b111 ∨ cmdRsv w ≠ 0 := by
  rcases word_cases w with h | ⟨op, rfl⟩
  · exact iff_of_true (by simp [decodeByte_rsv h, Instr.errors]) (.inr h)
  · revert op; decide

/-- A row of illegal words raises CMD_ILLEGAL in every state. -/
theorem exec_illegal {i : Instr} (h : CmdError.cmdIllegal ∈ i.errors) (s : State) :
    exec i s = .next (s.afterError .cmdIllegal i.op) := by
  cases i with
  | cmdIllegal => exact exec_cmdIllegal s
  | cmdIllegalRsv rsv op => rw [op_cmdIllegalRsv]; exact exec_cmdIllegalRsv s rsv op
  | typeEnc | typeDec | hdrDec | hdrEnc | msgDec | msgEnc | xmaBuild => simp [Instr.errors] at h

theorem statusEcode_statusOk (o : BitVec 3) : statusEcode (statusOk o) = 0 := statusEcode_word 0 0 o

theorem statusEcode_statusError (e : CmdError) (o : BitVec 3) : statusEcode (statusError e o) = e.code := statusEcode_word 1 e.code o

theorem code_eq_nine_iff (e : CmdError) : e.code = 9 ↔ e = .cmdIllegal := by cases e <;> decide

/-- No other row reports error 9. -/
theorem ecode_ne_nine {i : Instr} (hi : CmdError.cmdIllegal ∉ i.errors) {s t : State} (h : exec i s = .next t) :
    statusEcode t.status ≠ 9 := by
  rcases exec_next_cases h with ⟨u, _, rfl⟩ | ⟨e, he, rfl⟩
  · rw [State.afterOk, writeReg_status_self, statusEcode_statusOk]
    decide
  · rw [State.afterError, writeReg_status_self, statusEcode_statusError]
    exact mt (code_eq_nine_iff e).1 (fun h => hi (h ▸ he))

/-- The number an error's STATUS word stands for (R25, R204). -/
theorem toNat_statusError (e : CmdError) (o : BitVec 3) :
    (statusError e o).toNat = 3 + 16 * e.code.toNat + 256 * o.toNat := by
  have hword : ∀ (c : BitVec 4) (o : BitVec 3), (statusWord 1 c o).toNat = 3 + 16 * c.toNat + 256 * o.toNat := by decide
  exact hword e.code o

/-- Settles O4: the rows of illegal words raise CMD_ILLEGAL, and no other row does. -/
theorem illegalCommandWordsWriteStatusOnly : Obligations.IllegalCommandWordsWriteStatusOnly := by
  intro s w
  have hiff := cmdIllegal_mem_errors_decodeByte_iff w
  refine ⟨fun hw => ?_, fun hw => ?_⟩
  · have hx := exec_illegal (hiff.2 hw) (s.latchCmd w)
    refine ⟨_, hx, issueCommand_cmd hx, ?_, ?_, fun sp i => ?_, ?_⟩
    · rw [State.afterError, writeReg_status_self, toNat_statusError, op_decodeByte, toNat_cmdOp]
      rfl
    · exact ((SameRegsBut.refl _ s).writeReg .cmd w).writeReg .status _
    · simp [State.afterError, State.latchCmd]
    · simp [SameOutside, State.afterError, State.latchCmd]
  · obtain ⟨t, hx⟩ : ∃ t, issueCommand w s = .next t := by
      rcases exec_cases (decodeByte w) (s.latchCmd w) with ⟨u, _, hx⟩ | ⟨e, _, hx⟩ <;> exact ⟨_, hx⟩
    exact ⟨t, hx, issueCommand_cmd hx, ecode_ne_nine (mt hiff.1 hw) hx⟩

/-- Settles O5: both rows end as CMD_ILLEGAL, whose STATUS word is the one printed. -/
theorem illegalCommandsCompleteWithError9 : Obligations.IllegalCommandsCompleteWithError9 := by
  have hword : ∀ op : BitVec 3, statusError .cmdIllegal op = 0x0093#16 ||| (op.zeroExtend 16 <<< 8) := by decide
  refine ⟨exec_cmdIllegal, fun s rsv op => ?_⟩
  rw [exec_cmdIllegalRsv, State.afterError, hword]
  rfl

/-! ### The host's control flow (R83) -/

/-- The value a branch compares does not depend on the statements left. -/
@[simp] theorem value_withRest (o : HostOperand) (s : State) (p : List Stmt) : o.value (s.withRest p) = o.value s := by
  cases o <;> simp [HostOperand.value]

theorem runJmp_of_afterLabel {l : Label} {s : State} {p : List Stmt} (h : afterLabel l s.host.prog = some p) :
    runJmp l s = .next (s.withRest p) := by
  rw [runJmp, h]

theorem runBranch_of_value {o : HostOperand} {s : State} {x : Nat} (h : o.value s = .ok x) (taken : Nat → Bool) (l : Label) :
    runBranch o taken l s = if taken x then runJmp l s else .next s := by
  rw [runBranch, h]

/-- A statement that branches: on the label's statements when taken, on the next statement when not. -/
theorem step_branch {s : State} {st : Stmt} {rest p : List Stmt} {o : HostOperand} {x : Nat} {l : Label} {taken : Nat → Bool}
    (hrest : s.host.rest = st :: rest) (hst : ∀ u, runStmt st u = runBranch o taken l u) (hx : o.value s = .ok x) :
    (taken x = true → afterLabel l s.host.prog = some p → step s = .next (s.withRest p)) ∧
      (taken x = false → step s = .next (s.withRest rest)) := by
  have hv : o.value (s.withRest rest) = .ok x := by rwa [value_withRest]
  rw [step_stmt s st rest hrest, hst, runBranch_of_value hv]
  refine ⟨fun ht hp => ?_, fun ht => ?_⟩
  · rw [if_pos ht]
    exact runJmp_of_afterLabel hp
  · simp [ht]

/-- Settles O46: a branch by whether it is taken, the other statements by what they leave to run. -/
theorem hostBranches : Obligations.HostBranches := by
  refine ⟨fun s o v x l rest p hx => ⟨fun hrest => ?_, fun hrest => ?_⟩, fun s l rest p hrest hp => ?_,
    fun s l rest hrest => step_stmt s _ rest hrest, fun s rest hrest => step_stmt s _ rest hrest⟩
  · simpa using step_branch (p := p) hrest (fun _ => rfl) hx
  · simpa using step_branch (p := p) hrest (fun _ => rfl) hx
  · rw [step_stmt s _ rest hrest]
    exact runJmp_of_afterLabel hp

/-! ### The pseudo-instructions (R84) -/

@[simp] theorem length_wrbFrom (sp : Space) (bs : List Byte) : ∀ i, (wrbFrom sp i bs).length = bs.length := by
  induction bs with
  | nil => intro i; rfl
  | cons b bs ih => intro i; simp [wrbFrom, ih]

/-- The k-th statement writes the k-th byte, k places on. -/
theorem getElem?_wrbFrom (sp : Space) (bs : List Byte) :
    ∀ i k, (wrbFrom sp i bs)[k]? = bs[k]?.map (fun b => Stmt.wrb sp (i + k) b) := by
  induction bs with
  | nil => intro i k; rfl
  | cons b bs ih =>
    intro i k
    cases k with
    | zero => rfl
    | succ k => simp [wrbFrom, ih, Nat.add_assoc, Nat.add_comm 1 k]

/-- A pseudo-instruction's step puts its expansion in front of the rest. -/
theorem step_expansion {s : State} {st : Stmt} {rest e : List Stmt} (hrest : s.host.rest = st :: rest)
    (hst : runStmt st (s.withRest rest) = runExpansion e (s.withRest rest)) : step s = .next (s.withRest (e ++ rest)) :=
  (step_stmt s st rest hrest).trans hst

/-- Settles O47: each pseudo-instruction's step puts its expansion in front of the rest, and the expansions are the statements of R84. -/
theorem pseudoInstructionsExpand : Obligations.PseudoInstructionsExpand := by
  refine ⟨fun s rest hrest => ?_, fun s p rest hrest => ?_, fun s bs rest hrest => ?_⟩
  · exact ⟨_, step_expansion (e := expandCpyxma s.xmaOut) hrest rfl, rfl, rfl⟩
  · rw [step_expansion (e := expandPeer p) hrest rfl, ← toNat_ip]
    rfl
  · refine ⟨_, step_expansion (e := expandWrv bs) hrest rfl, rfl, ?_, fun k b hk => ?_, ?_⟩
    · simp only [withRest_host, expandWrv, List.length_append, length_wrbFrom, List.length_cons, List.length_nil]
    · have hlt : k < (wrbFrom .val 0 bs).length := by
        rw [length_wrbFrom]
        exact (List.getElem?_eq_some_iff.1 hk).1
      simp [expandWrv, List.getElem?_append_left hlt, getElem?_wrbFrom, hk]
    · simp [expandWrv, Reg.index]

/-! ### What the commands write (R73) -/

/-- A command's results stand in the registers of its row. -/
theorem CommandResult.sameRegsBut {s u : State} {i : Instr} (h : CommandResult s i u) : SameRegsBut i.writeRegs s u := by
  have h0 : SameRegsBut i.writeRegs s s := .refl _ s
  cases h with
  | typeEnc => exact h0.writeReg .type _
  | typeDec => exact (h0.writeReg .cls _).writeReg .method _
  | hdrDec => exact h0.writeHeader _
  | hdrEnc | msgEnc => exact (h0.memWrite .obuf 0 _).writeReg .obufLen _
  | msgDec =>
    exact (((((h0.writeHeader _).writeReg .attrPresent _).writeReg .attrType _).writeReg .attrLen _).writeReg .valCnt _).memWrite .val 0 _
  | xmaBuild => exact h0.writeReg .xmaOut _

/-- A command's results change nothing but registers and bytes. -/
theorem CommandResult.sameOutside {s u : State} {i : Instr} (h : CommandResult s i u) : SameOutside s u := by
  cases h <;> simp [SameOutside, State.writeHeader, State.writeAttr, State.writeOutput]

/-- VAL_CNT holds the length of a decoded value: a datagram is at most 65535 bytes (R36). -/
theorem toNat_valCnt_writeAttr {s : State} {r : Message} (u : State)
    (hd : messageDecodeF (s.byte .ibuf) s.ibufLen.toNat = .ok r) : (u.writeAttr r).valCnt.toNat = r.value.length := by
  obtain ⟨_, _, _, hcnt, _⟩ := writeAttr_spec u r
  have hlen := length_value_of_messageDecodeF _ _ _ hd
  have hlt := s.ibufLen.isLt
  rw [hcnt, BitVec.toNat_ofNat, Nat.mod_eq_of_lt (by omega)]

/-- OBUF_LEN holds the length of an encoded message that fits OBUF. -/
theorem toNat_obufLen_writeOutput (u : State) {bs : List Byte} (hbs : bs.length < 65536) :
    (u.writeOutput bs).obufLen.toNat = bs.length := by
  rw [(writeOutput_spec u bs).1, BitVec.toNat_ofNat, Nat.mod_eq_of_lt hbs]

/-- An encoder's output leaves every byte but those of the message. -/
theorem byte_writeOutput_of_le (u : State) (bs : List Byte) (sp : Space) (k : Nat) (h : sp = .obuf → bs.length ≤ k) :
    (u.writeOutput bs).byte sp k = u.byte sp k := by
  obtain ⟨_, _, _, hbeyond, hspaces, _⟩ := writeOutput_spec u bs
  by_cases hsp : sp = .obuf
  · subst hsp
    exact hbeyond k (h rfl)
  · exact hspaces sp k hsp

/-- A decoded message leaves every byte but those of its value. -/
theorem byte_writeAttr_of_le (u : State) (r : Message) (sp : Space) (k : Nat) (h : sp = .val → r.value.length ≤ k) :
    (u.writeAttr r).byte sp k = u.byte sp k := by
  obtain ⟨_, _, _, _, _, _, hbeyond, hspaces, _⟩ := writeAttr_spec u r
  by_cases hsp : sp = .val
  · subst hsp
    exact hbeyond k (h rfl)
  · exact hspaces sp k hsp

/-- A command's results stand in the bytes of its row. -/
theorem CommandResult.byte_of_le {s u : State} {i : Instr} (h : CommandResult s i u) (hcfg : s.cfg.ok) (sp : Space) (k : Nat)
    (hk : i.writtenBelow u sp ≤ k) : u.byte sp k = s.byte sp k := by
  cases h with
  | typeEnc | typeDec | hdrDec | xmaBuild => simp
  | hdrEnc => exact byte_writeOutput_of_le s _ sp k fun hsp => by simpa [Instr.writtenBelow, hsp] using hk
  | @msgDec r hd =>
    rw [byte_writeAttr_of_le, byte_writeHeader]
    rintro rfl
    rw [← toNat_valCnt_writeAttr (s.writeHeader r.header) hd]
    exact hk
  | msgEnc _ hv =>
    refine byte_writeOutput_of_le s _ sp k ?_
    rintro rfl
    have hlen := length_messageBytes_le hcfg hv
    rw [← toNat_obufLen_writeOutput s (by have := hcfg.2; omega)]
    exact hk

theorem status_mem_writeRegs (i : Instr) : Reg.status ∈ i.writeRegs := by cases i <;> simp [Instr.writeRegs]

/-- Settles O38: STATUS is in every row, and a command that succeeds writes only its results beside it. -/
theorem commandsWriteOnlyTheirOwn : Obligations.CommandsWriteOnlyTheirOwn := by
  intro i s t hcfg hx
  have hst := status_mem_writeRegs i
  rcases exec_next_cases hx with ⟨u, hu, rfl⟩ | ⟨e, _, rfl⟩
  · refine ⟨hu.sameRegsBut.writeReg .status _ hst, fun sp k hk => ?_, ?_⟩
    · rw [State.afterOk, byte_writeReg]
      refine hu.byte_of_le hcfg sp k ?_
      cases i <;> exact hk
    · simpa [SameOutside, State.afterOk] using hu.sameOutside
  · exact ⟨(SameRegsBut.refl _ s).writeReg .status _ hst, fun sp k _ => byte_writeReg s .status _ sp k,
      by simp [SameOutside, State.afterError]⟩

/-! ### What the commands read (R73) -/

/-- Two states that agree on all a command reads: the parameter, the registers and the bytes of its row. -/
structure SameOperands (i : Instr) (s s' : State) : Prop where
  cfg   : s.cfg = s'.cfg
  regs  : ∀ r ∈ i.readRegs, s.readReg r = s'.readReg r
  bytes : ∀ sp k, k < i.readBelow s sp → s.byte sp k = s'.byte sp k

/-- Two states that agree on all a command writes when it succeeds. -/
def SameResults (i : Instr) (t t' : State) : Prop :=
  (∀ r ∈ i.writeRegs, t.readReg r = t'.readReg r) ∧ ∀ sp k, k < i.writtenBelow t sp → t.byte sp k = t'.byte sp k

/-- The same STATUS, and after success the same results. -/
def SameReport (i : Instr) (t t' : State) : Prop :=
  t.status = t'.status ∧ (t.status.getLsbD 1 = false → SameResults i t t')

/-- The state in which a command with OP o ends that computed x from its operands: x written and success reported, or the error reported and
nothing else written. -/
def State.finish {α : Type} (s : State) (o : BitVec 3) (x : Except CmdError α) (write : State → α → State) : State :=
  match x with
  | .ok a => (write s a).afterOk o
  | .error e => s.afterError e o

theorem sameReport_afterError (i : Instr) (s s' : State) (e : CmdError) (o : BitVec 3) :
    SameReport i (s.afterError e o) (s'.afterError e o) :=
  ⟨rfl, fun hok => by cases (statusError_getLsbD_err e o).symm.trans hok⟩

/-- Two states in which a command computes the same get the same report, if what it writes does not depend on the state it is written to. -/
theorem sameReport_of_finish {α : Type} {i : Instr} {s s' t t' : State} {o : BitVec 3} {x x' : Except CmdError α}
    {write : State → α → State} (hs : exec i s = .next (s.finish o x write)) (hs' : exec i s' = .next (s'.finish o x' write))
    (hxx : x = x') (hw : ∀ a, x = .ok a → SameResults i ((write s a).afterOk o) ((write s' a).afterOk o))
    (ht : exec i s = .next t) (ht' : exec i s' = .next t') : SameReport i t t' := by
  subst hxx
  cases hs.symm.trans ht
  cases hs'.symm.trans ht'
  cases x with
  | ok a => exact ⟨rfl, fun _ => hw a rfl⟩
  | error e => exact sameReport_afterError i s s' e o

/-! Each command as what it computes and what it writes of that. -/

theorem exec_typeEnc_finish (s : State) :
    exec .typeEnc s = .next (s.finish 0 (typeEncodeF s.cls s.method) fun u t => u.writeReg .type t) := by
  rcases exec_typeEnc s with ⟨hm, hx⟩ | ⟨hm, hx⟩
  · rw [hx, typeEncodeF_known _ _ hm, State.finish]
  · rw [hx, typeEncodeF_unknown _ _ hm, State.finish]

theorem exec_typeDec_finish (s : State) :
    exec .typeDec s = .next (s.finish 1 (typeDecodeF s.type) fun u p => (u.writeReg .cls p.1).writeReg .method p.2) := by
  rcases exec_typeDec s with ⟨c, m, hd, hx⟩ | ⟨e, hd, hx⟩ <;> rw [hx, hd, State.finish]

theorem exec_hdrDec_finish (s : State) :
    exec .hdrDec s = .next (s.finish 2 (headerDecodeF (s.byte .ibuf) s.ibufLen.toNat) State.writeHeader) := by
  rcases exec_hdrDec s with ⟨h, hd, hx⟩ | ⟨e, hd, hx⟩ <;> rw [hx, hd, State.finish]

theorem exec_hdrEnc_finish (s : State) :
    exec .hdrEnc s = .next (s.finish 3 (headerEncodeF s.cls s.method s.msgLen s.cookie s.tid) State.writeOutput) := by
  rcases exec_hdrEnc s with ⟨hm, hx⟩ | ⟨hm, hx⟩
  · rw [hx, headerEncodeF_known _ _ _ _ _ hm, State.finish]
  · rw [hx, headerEncodeF_unknown _ _ _ _ _ hm, State.finish]

theorem exec_msgDec_finish (s : State) :
    exec .msgDec s = .next (s.finish 4 (messageDecodeF (s.byte .ibuf) s.ibufLen.toNat)
      fun u r => (u.writeHeader r.header).writeAttr r) := by
  rcases exec_msgDec s with ⟨r, hd, hx⟩ | ⟨e, hd, hx⟩ <;> rw [hx, hd, State.finish]

/-- What MSG_ENC computes: the message, or one of its two errors, the method first (R143, R203). -/
def State.encodedMessage (s : State) : Except CmdError (List Byte) :=
  if knownMethod s.method then
    if s.attrPresent = 1 ∧ s.valMax < s.valCnt.toNat then .error .encValueOverflow else .ok s.messageBytes
  else .error .encMethodUnknown

theorem exec_msgEnc_finish (s : State) : exec .msgEnc s = .next (s.finish 5 s.encodedMessage State.writeOutput) := by
  rcases exec_msgEnc s with ⟨hm, hv, hx⟩ | ⟨hm, hx⟩ | ⟨hm, hp, hv, hx⟩
  · rw [hx, State.encodedMessage, if_pos hm, if_neg hv, State.finish]
  · rw [hx, State.encodedMessage, if_neg (by simp [hm]), State.finish]
  · rw [hx, State.encodedMessage, if_pos hm, if_pos ⟨hp, hv⟩, State.finish]

theorem exec_xmaBuild_finish (s : State) :
    exec .xmaBuild s = .next (s.finish 6 (.ok (be64Of (xmaBuildF s.peerIp s.peerPort))) fun u v => u.writeReg .xmaOut v) :=
  exec_xmaBuild s

/-! What each command computes depends on its operands only. -/

theorem SameOperands.typeEncodeF_eq {s s' : State} (ha : SameOperands .typeEnc s s') :
    typeEncodeF s.cls s.method = typeEncodeF s'.cls s'.method := by
  obtain ⟨hcls, hmethod⟩ : s.cls = s'.cls ∧ s.method = s'.method := by simpa [Instr.readRegs] using ha.regs
  rw [hcls, hmethod]

theorem SameOperands.typeDecodeF_eq {s s' : State} (ha : SameOperands .typeDec s s') : typeDecodeF s.type = typeDecodeF s'.type := by
  have htype : s.type = s'.type := by simpa [Instr.readRegs] using ha.regs
  rw [htype]

theorem SameOperands.headerDecodeF_eq {s s' : State} (ha : SameOperands .hdrDec s s') :
    headerDecodeF (s.byte .ibuf) s.ibufLen.toNat = headerDecodeF (s'.byte .ibuf) s'.ibufLen.toNat := by
  have hlen : s.ibufLen = s'.ibufLen := by simpa [Instr.readRegs] using ha.regs
  rw [← hlen]
  exact headerDecodeF_congr _ _ _ (ha.bytes .ibuf)

theorem SameOperands.headerEncodeF_eq {s s' : State} (ha : SameOperands .hdrEnc s s') :
    headerEncodeF s.cls s.method s.msgLen s.cookie s.tid = headerEncodeF s'.cls s'.method s'.msgLen s'.cookie s'.tid := by
  obtain ⟨hcls, hmethod, hlen, hcookie, htid⟩ :
      s.cls = s'.cls ∧ s.method = s'.method ∧ s.msgLen = s'.msgLen ∧ s.cookie = s'.cookie ∧ s.tid = s'.tid := by
    simpa [Instr.readRegs] using ha.regs
  rw [hcls, hmethod, hlen, hcookie, htid]

/-- A message's decoding depends on the datagram's bytes only. -/
theorem messageDecodeF_congr (B C : Nat → Byte) (n : Nat) (h : ∀ k, k < n → B k = C k) : messageDecodeF B n = messageDecodeF C n := by
  by_cases hshort : n < 20
  · simp [messageDecodeF, headerDecodeF, hshort]
  · have hhdr : headerDecodeF B n = headerDecodeF C n := headerDecodeF_congr B C n fun k hk => h k (by omega)
    unfold messageDecodeF
    rw [hhdr]
    by_cases hattr : n < 24
    · simp [show n < hdrLen + attrHdrLen from hattr]
    · have hfields : ∀ a w, a + w ≤ 24 → ∀ k, k < w → B (a + k) = C (a + k) := fun a w hw k hk => h (a + k) (by omega)
      rw [be16At_congr B C 20 (hfields 20 2 (by omega)), be16At_congr B C 22 (hfields 22 2 (by omega)),
        slice_congr B C (n - 24) 24 fun k hk => h (24 + k) (by omega)]

theorem SameOperands.messageDecodeF_eq {s s' : State} (ha : SameOperands .msgDec s s') :
    messageDecodeF (s.byte .ibuf) s.ibufLen.toNat = messageDecodeF (s'.byte .ibuf) s'.ibufLen.toNat := by
  have hlen : s.ibufLen = s'.ibufLen := by simpa [Instr.readRegs] using ha.regs
  rw [← hlen]
  exact messageDecodeF_congr _ _ _ (ha.bytes .ibuf)

theorem SameOperands.encodedMessage_eq {s s' : State} (ha : SameOperands .msgEnc s s') : s.encodedMessage = s'.encodedMessage := by
  obtain ⟨hcls, hmethod, hlen, hcookie, htid, hpresent, htype, halen, hcnt⟩ :
      s.cls = s'.cls ∧ s.method = s'.method ∧ s.msgLen = s'.msgLen ∧ s.cookie = s'.cookie ∧ s.tid = s'.tid ∧
        s.attrPresent = s'.attrPresent ∧ s.attrType = s'.attrType ∧ s.attrLen = s'.attrLen ∧ s.valCnt = s'.valCnt := by
    simpa [Instr.readRegs] using ha.regs
  have hval : s.memRead .val 0 s.valCnt.toNat = s'.memRead .val 0 s.valCnt.toNat :=
    slice_congr _ _ _ 0 fun k hk => ha.bytes .val (0 + k) (by simpa [Instr.readBelow] using hk)
  rw [State.encodedMessage, State.encodedMessage, State.messageBytes, State.messageBytes, valMax_eq, valMax_eq, hval, ha.cfg, hcls,
    hmethod, hlen, hcookie, htid, hpresent, htype, halen, hcnt]

theorem SameOperands.xmaBuildF_eq {s s' : State} (ha : SameOperands .xmaBuild s s') :
    xmaBuildF s.peerIp s.peerPort = xmaBuildF s'.peerIp s'.peerPort := by
  obtain ⟨hip, hport⟩ : s.peerIp = s'.peerIp ∧ s.peerPort = s'.peerPort := by simpa [Instr.readRegs] using ha.regs
  rw [hip, hport]

/-! What each command writes is the same whatever state it is written to. -/

theorem length_of_headerEncodeF {c : BitVec 2} {m : BitVec 12} {len : BitVec 16} {k : BitVec 32} {tid : Tid} {bs : List Byte}
    (h : headerEncodeF c m len k tid = .ok bs) : bs.length = 20 := by
  cases hm : knownMethod m with
  | true => rw [headerEncodeF_known _ _ _ _ _ hm] at h; cases h; rfl
  | false => rw [headerEncodeF_unknown _ _ _ _ _ hm] at h; cases h

theorem byte_writeOutput_of_lt (u : State) {bs : List Byte} {k : Nat} (hk : k < bs.length) :
    (u.writeOutput bs).byte .obuf k = bytesOf bs k := by
  obtain ⟨_, _, hbytes, _⟩ := writeOutput_spec u bs
  exact hbytes k hk

theorem byte_writeAttr_of_lt (u : State) {r : Message} {k : Nat} (hk : k < r.value.length) :
    (u.writeAttr r).byte .val k = bytesOf r.value k := by
  obtain ⟨_, _, _, _, _, hbytes, _⟩ := writeAttr_spec u r
  exact hbytes k hk

/-- Results that stand in registers only. -/
theorem sameResults_of_regs {i : Instr} {t t' : State} (hregs : ∀ r ∈ i.writeRegs, t.readReg r = t'.readReg r)
    (hbytes : ∀ sp, i.writtenBelow t sp = 0) : SameResults i t t' :=
  ⟨hregs, fun sp k hk => absurd hk (by simp [hbytes sp])⟩

/-- An encoder's output is the same in OBUF_LEN and in the bytes of the message. -/
theorem sameResults_writeOutput {i : Instr} (hregs : i.writeRegs = [.obufLen, .status]) (s s' : State) (o : BitVec 3) {bs : List Byte}
    (hbytes : ∀ sp k, k < i.writtenBelow ((s.writeOutput bs).afterOk o) sp → sp = .obuf ∧ k < bs.length) :
    SameResults i ((s.writeOutput bs).afterOk o) ((s'.writeOutput bs).afterOk o) := by
  refine ⟨?_, fun sp k hk => ?_⟩
  · simp [hregs, State.afterOk, State.writeOutput]
  · obtain ⟨rfl, hlt⟩ := hbytes sp k hk
    simp only [State.afterOk, byte_writeReg, byte_writeOutput_of_lt _ hlt]

/-- A decoded message is the same in the registers and in the bytes of the value. -/
theorem sameResults_writeMessage (s s' : State) (o : BitVec 3) (r : Message) :
    SameResults .msgDec (((s.writeHeader r.header).writeAttr r).afterOk o) (((s'.writeHeader r.header).writeAttr r).afterOk o) := by
  refine ⟨?_, fun sp k hk => ?_⟩
  · simp [Instr.writeRegs, State.afterOk, State.writeHeader, State.writeAttr]
  · cases sp with
    | ibuf | obuf => cases hk
    | val =>
      obtain ⟨_, _, _, hcnt, _⟩ := writeAttr_spec (s.writeHeader r.header) r
      have hlt : k < r.value.length := by
        refine Nat.lt_of_lt_of_le hk ?_
        rw [Instr.writtenBelow, if_pos rfl, State.afterOk, writeReg_valCnt_ne _ _ _ (by decide), hcnt]
        exact toNat_ofNat_le 16 le_rfl
      simp only [State.afterOk, byte_writeReg, byte_writeAttr_of_lt _ hlt]

/-- Settles O39: a command's ending is what it computes from its operands, and its results are what it computed. -/
theorem commandsReadOnlyTheirOperands : Obligations.CommandsReadOnlyTheirOperands := by
  intro i s s' t t' hcfg hregs hbytes hx hx'
  have ha : SameOperands i s s' := ⟨hcfg, hregs, hbytes⟩
  show SameReport i t t'
  cases i with
  | typeEnc =>
    exact sameReport_of_finish (exec_typeEnc_finish s) (exec_typeEnc_finish s') ha.typeEncodeF_eq
      (fun ty _ => sameResults_of_regs (by simp [Instr.writeRegs, State.afterOk]) fun _ => rfl) hx hx'
  | typeDec =>
    exact sameReport_of_finish (exec_typeDec_finish s) (exec_typeDec_finish s') ha.typeDecodeF_eq
      (fun p _ => sameResults_of_regs (by simp [Instr.writeRegs, State.afterOk]) fun _ => rfl) hx hx'
  | hdrDec =>
    exact sameReport_of_finish (exec_hdrDec_finish s) (exec_hdrDec_finish s') ha.headerDecodeF_eq
      (fun h _ => sameResults_of_regs (by simp [Instr.writeRegs, State.afterOk, State.writeHeader]) fun _ => rfl) hx hx'
  | hdrEnc =>
    refine sameReport_of_finish (exec_hdrEnc_finish s) (exec_hdrEnc_finish s') ha.headerEncodeF_eq
      (fun bs hbs => sameResults_writeOutput rfl s s' 3 fun sp k hk => ?_) hx hx'
    rw [length_of_headerEncodeF hbs]
    cases sp with
    | ibuf | val => cases hk
    | obuf => exact ⟨rfl, hk⟩
  | msgDec =>
    exact sameReport_of_finish (exec_msgDec_finish s) (exec_msgDec_finish s') ha.messageDecodeF_eq
      (fun r _ => sameResults_writeMessage s s' 4 r) hx hx'
  | msgEnc =>
    refine sameReport_of_finish (exec_msgEnc_finish s) (exec_msgEnc_finish s') ha.encodedMessage_eq
      (fun bs _ => sameResults_writeOutput rfl s s' 5 fun sp k hk => ?_) hx hx'
    cases sp with
    | ibuf | val => cases hk
    | obuf => exact ⟨rfl, Nat.lt_of_lt_of_le hk (toNat_ofNat_le 16 le_rfl)⟩
  | xmaBuild =>
    exact sameReport_of_finish (exec_xmaBuild_finish s) (exec_xmaBuild_finish s') (by rw [ha.xmaBuildF_eq])
      (fun v _ => sameResults_of_regs (by simp [Instr.writeRegs, State.afterOk]) fun _ => rfl) hx hx'
  | cmdIllegal =>
    cases (exec_cmdIllegal s).symm.trans hx
    cases (exec_cmdIllegal s').symm.trans hx'
    exact sameReport_afterError _ s s' _ _
  | cmdIllegalRsv rsv op =>
    cases (exec_cmdIllegalRsv s rsv op).symm.trans hx
    cases (exec_cmdIllegalRsv s' rsv op).symm.trans hx'
    exact sameReport_afterError _ s s' _ _

end Sys2Proof.Machine
end

section
/-! PROOFS. The family 40_type_codec.md: the parts of a type field, the two functions and the table between them, and the two commands. -/

namespace Sys2Proof.Machine

/-! ### The parts of a type field (R75, R101, R102) -/

/-- A type field by its slices, as the pseudocode of R101 places them: the reserved bits 0, the method in three pieces, the class bits
between. -/
structure TypeParts (t : BitVec 16) (c : BitVec 2) (m : BitVec 12) : Prop where
  reserved  : t.extractLsb' 14 2 = 0#2
  methodHi  : t.extractLsb' 9 5 = m.extractLsb' 7 5
  classHi   : t.extractLsb' 8 1 = c.extractLsb' 1 1
  methodMid : t.extractLsb' 5 3 = m.extractLsb' 4 3
  classLo   : t.extractLsb' 4 1 = c.extractLsb' 0 1
  methodLo  : t.extractLsb' 0 4 = m.extractLsb' 0 4

/-- A field is encoded with its parts: each slice falls on one piece of the concatenation. -/
theorem typeParts_typeField (c : BitVec 2) (m : BitVec 12) : TypeParts (typeField c m) c m := by
  unfold typeField
  constructor <;> simp (disch := decide) only [Nat.reduceSub, BitVec.extractLsb'_append_eq_of_le,
    BitVec.extractLsb'_append_eq_of_add_le, BitVec.extractLsb'_eq_self]

theorem TypeParts.typeClass_eq {t : BitVec 16} {c : BitVec 2} {m : BitVec 12} (h : TypeParts t c m) : typeClass t = c := by
  rw [typeClass, h.classHi, h.classLo]
  exact BitVec.extractLsb'_append_extractLsb'

theorem TypeParts.typeMethod_eq {t : BitVec 16} {c : BitVec 2} {m : BitVec 12} (h : TypeParts t c m) : typeMethod t = m := by
  have hhigh : m.extractLsb' 7 5 ++ m.extractLsb' 4 3 = m.extractLsb' 4 8 := BitVec.extractLsb'_append_extractLsb'_eq_extractLsb' rfl
  rw [typeMethod, h.methodHi, h.methodMid, h.methodLo, hhigh]
  exact BitVec.extractLsb'_append_extractLsb'

/-- Slices of one bit are equal exactly when the bits are. -/
theorem extractLsb'_one_eq_iff {v w : Nat} {x : BitVec v} {y : BitVec w} {i j : Nat} :
    x.extractLsb' i 1 = y.extractLsb' j 1 ↔ x.getLsbD i = y.getLsbD j := by
  simp [BitVec.eq_of_getLsbD_eq_iff]

/-! ### The two functions (R100 to R103) -/

/-- A field with its reserved bits 0 decodes to its class and method, or fails by its method (R102). -/
theorem typeDecodeF_of_parts {t : BitVec 16} {c : BitVec 2} {m : BitVec 12} (h : TypeParts t c m) :
    typeDecodeF t = if knownMethod m then .ok (c, m) else .error .fmtMethodUnknown := by
  cases hk : knownMethod m with
  | true => exact (typeDecodeF_ok_iff t c m).2 ⟨h.reserved, h.typeClass_eq, h.typeMethod_eq, hk⟩
  | false => exact (typeDecodeF_error_iff t _).2 (.inr ⟨h.reserved, by rw [h.typeMethod_eq, hk], rfl⟩)

theorem typeDecodeF_reserved {t : BitVec 16} (h : t.extractLsb 15 14 ≠ 0) : typeDecodeF t = .error .fmtTypeReserved :=
  (typeDecodeF_error_iff t _).2 (.inl ⟨h, rfl⟩)

/-- R103: one function succeeds exactly where the other gives its argument back. -/
theorem typeEncodeF_ok_iff_typeDecodeF_ok (c : BitVec 2) (m : BitVec 12) (t : BitVec 16) :
    typeEncodeF c m = .ok t ↔ typeDecodeF t = .ok (c, m) := by
  refine ⟨fun h => ?_, fun h => (typeDecodeF_ok_known h).2⟩
  cases hk : knownMethod m with
  | true =>
    rw [typeEncodeF_known c m hk] at h
    cases h
    rw [typeDecodeF_of_parts (typeParts_typeField c m), if_pos hk]
  | false =>
    rw [typeEncodeF_unknown c m hk] at h
    cases h

/-- Settles O8: the field encoded has the parts of the class and the method. -/
theorem typeEncodePlacesClassAndMethodBits : Obligations.TypeEncodePlacesClassAndMethodBits := by
  refine ⟨rfl, fun c m => ⟨typeEncodeF_unknown c m, fun hk => ⟨typeField c m, typeEncodeF_known c m hk, ?_⟩⟩⟩
  obtain ⟨hres, hmhi, hchi, hmmid, hclo, hmlo⟩ := typeParts_typeField c m
  exact ⟨hres, hmhi, extractLsb'_one_eq_iff.1 hchi, hmmid, extractLsb'_one_eq_iff.1 hclo, hmlo⟩

/-- Settles O9: a class and a method with the field's bits are its parts, and they decide the outcome. -/
theorem typeDecodeChecksAndExtracts : Obligations.TypeDecodeChecksAndExtracts := by
  refine ⟨rfl, rfl, fun t h => ?_, fun t => typeDecodeF_reserved, fun t c m hres hchi hclo hmhi hmmid hmlo => ?_⟩
  · simpa using typeDecodeF_error_mem t _ h
  · exact typeDecodeF_of_parts ⟨hres, hmhi.symm, extractLsb'_one_eq_iff.2 hchi.symm, hmmid.symm,
      extractLsb'_one_eq_iff.2 hclo.symm, hmlo.symm⟩

/-- Settles O10, by the equivalence of the two functions' successes. -/
theorem typeCodecFunctionsAreMutualInverses : Obligations.TypeCodecFunctionsAreMutualInverses := by
  refine ⟨fun c m hk => ?_, fun t c m => (typeEncodeF_ok_iff_typeDecodeF_ok c m t).2⟩
  have henc := typeEncodeF_known c m hk
  exact ⟨_, henc, (typeEncodeF_ok_iff_typeDecodeF_ok c m _).1 henc⟩

/-- Settles O7: the list of R14 holds the seven codes and no other. -/
theorem knownMethodsAreTheSevenCodes : Obligations.KnownMethodsAreTheSevenCodes := knownMethod_iff

/-! ### The lookup table (R104) -/

/-- The table's 28 entries are the type fields of their rows and columns. -/
theorem typeTableEntry_of_mem : ∀ m ∈ knownMethods, ∀ c, typeTableEntry c m = some (typeField c m) := by decide

theorem knownMethod_of_mem_typeTable : ∀ row ∈ typeTable, knownMethod row.method.code = true := by decide

theorem typeTableEntry_known (c : BitVec 2) {m : BitVec 12} (h : knownMethod m = true) :
    typeTableEntry c m = some (typeField c m) :=
  typeTableEntry_of_mem m (List.contains_iff_mem.1 h) c

/-- The table has a row for known methods only. -/
theorem typeTableEntry_unknown (c : BitVec 2) {m : BitVec 12} (h : knownMethod m = false) : typeTableEntry c m = none := by
  have hrow : typeTable.find? (fun row => row.method.code == m) = none := by
    refine List.find?_eq_none.2 fun row hrow hm => ?_
    have hk := knownMethod_of_mem_typeTable row hrow
    rw [eq_of_beq hm, h] at hk
    cases hk
  rw [typeTableEntry, hrow, Option.bind_none]

theorem typeTableEntry_eq_some_iff (c : BitVec 2) (m : BitVec 12) (t : BitVec 16) :
    typeTableEntry c m = some t ↔ typeEncodeF c m = .ok t := by
  cases hk : knownMethod m with
  | true => rw [typeTableEntry_known c hk, typeEncodeF_known c m hk, Option.some_inj, Except.ok.injEq]
  | false => simp only [typeTableEntry_unknown c hk, typeEncodeF_unknown c m hk, reduceCtorEq]

/-- The reserved bits are 0 exactly below 0x4000. -/
theorem reserved_eq_zero_iff (t : BitVec 16) : t.extractLsb' 14 2 = 0 ↔ ¬ 0x4000 ≤ t.toNat := by
  have hlt := t.isLt
  rw [← BitVec.toNat_inj, BitVec.extractLsb'_toNat, Nat.shiftRight_eq_div_pow]
  simp only [BitVec.ofNat_eq_ofNat, BitVec.toNat_ofNat]
  omega

/-- Settles O11: the table's entries are the encoder's successes, so a field outside it is one the decoder fails on. -/
theorem typeTableAgreesWithTheFunctions : Obligations.TypeTableAgreesWithTheFunctions := by
  have hdec : ∀ c m t, typeTableEntry c m = some t ↔ typeDecodeF t = .ok (c, m) := fun c m t =>
    (typeTableEntry_eq_some_iff c m t).trans (typeEncodeF_ok_iff_typeDecodeF_ok c m t)
  refine ⟨typeTableEntry_eq_some_iff, hdec, fun t hout => ?_⟩
  cases hd : typeDecodeF t with
  | ok p => exact absurd ((hdec p.1 p.2 t).2 hd) (hout p.1 p.2)
  | error e =>
    rcases (typeDecodeF_error_iff t e).1 hd with ⟨hres, rfl⟩ | ⟨hres, _, rfl⟩
    · rw [if_pos (not_not.1 (mt (reserved_eq_zero_iff t).2 hres))]
    · rw [if_neg ((reserved_eq_zero_iff t).1 hres)]

/-! ### The commands (R105, R106) -/

/-- R215: no command reports error 3. -/
theorem ecode_ne_three {i : Instr} {s t : State} (h : exec i s = .next t) : statusEcode t.status ≠ 3 := by
  rcases exec_next_cases h with ⟨u, _, rfl⟩ | ⟨e, he, rfl⟩
  · rw [State.afterOk, writeReg_status_self, statusEcode_statusOk]
    decide
  · rw [State.afterError, writeReg_status_self, statusEcode_statusError]
    exact mt (code_eq_three_iff e).1 fun h => fmtClassUnknown_not_mem_errors i (h ▸ he)

/-- Settles O22: TYPE_DEC ends as TypeDecodeF of TYPE does. -/
theorem typeDecCommand : Obligations.TypeDecCommand := by
  refine ⟨rfl, fun s c m hd => ?_, fun s hres => ?_, fun s hres hk => ?_, fun s t => ecode_ne_three⟩
  · rw [exec_typeDec_finish, hd]
    rfl
  · rw [exec_typeDec_finish, typeDecodeF_reserved hres]
    rfl
  · rw [exec_typeDec_finish, (typeDecodeF_error_iff s.type _).2 (.inr ⟨hres, hk, rfl⟩)]
    rfl

/-- Settles O21: TYPE_ENC ends as TypeEncodeF of CLASS and METHOD does. -/
theorem typeEncCommand : Obligations.TypeEncCommand := by
  refine ⟨rfl, fun s hk => ⟨_, typeEncodeF_known _ _ hk, ?_⟩, fun s hk => ?_⟩
  · rw [exec_typeEnc_finish, typeEncodeF_known _ _ hk]
    rfl
  · rw [exec_typeEnc_finish, typeEncodeF_unknown _ _ hk]
    rfl

end Sys2Proof.Machine
end

section
/-! PROOFS. The family 41_header_codec.md: the cookie, the decoder's checks, what a sequence that holds a header is, and the two commands. -/

namespace Sys2Proof.Machine

/-! ### The bytes of a field, and the cookie (R78, R120) -/

theorem be32At_byte (B : Nat → Byte) (a : Nat) {j : Nat} (hj : j < 4) : (be32At B a).extractLsb' (24 - 8 * j) 8 = B (a + j) := by
  unfold be32At be32
  interval_cases j <;> simp (disch := decide) only [Nat.reduceMul, Nat.reduceSub, Nat.add_zero, BitVec.extractLsb'_append_eq_of_le,
    BitVec.extractLsb'_append_eq_of_add_le, BitVec.extractLsb'_eq_self]

/-- B[a] is the most significant byte of a 96-bit field (R31). -/
theorem be96At_byte (B : Nat → Byte) (a : Nat) {j : Nat} (hj : j < 12) : (be96At B a).extractLsb' (88 - 8 * j) 8 = B (a + j) := by
  unfold be96At
  by_cases h8 : 8 ≤ j
  · rw [BitVec.extractLsb'_append_eq_of_add_le (by omega), show 88 - 8 * j = 24 - 8 * (j - 8) by omega, be32At_byte B _ (by omega),
      show a + 8 + (j - 8) = a + j by omega]
  rw [BitVec.extractLsb'_append_eq_of_le (by omega)]
  by_cases h4 : 4 ≤ j
  · rw [BitVec.extractLsb'_append_eq_of_add_le (by omega), show 88 - 8 * j - 32 = 24 - 8 * (j - 4) by omega,
      be32At_byte B _ (by omega), show a + 4 + (j - 4) = a + j by omega]
  · rw [BitVec.extractLsb'_append_eq_of_le (by omega), show 88 - 8 * j - 32 - 32 = 24 - 8 * j by omega, be32At_byte B a (by omega)]

/-- Byte 0 holds the reserved bits of the type field (R75). -/
theorem reserved_be16At (B : Nat → Byte) (a : Nat) : (be16At B a).extractLsb 15 14 = (B a).extractLsb 7 6 :=
  BitVec.extractLsb'_append_eq_of_le (by decide)

theorem cookieOk_iff (k : BitVec 32) : cookieOk k = true ↔ k = magicCookie := beq_iff_eq

theorem be32At_eq_magicCookie_iff (B : Nat → Byte) (a : Nat) :
    be32At B a = magicCookie ↔ B a = 0x21 ∧ B (a + 1) = 0x12 ∧ B (a + 2) = 0xA4 ∧ B (a + 3) = 0x42 := by
  constructor
  · intro h
    have hbyte : ∀ j, j < 4 → B (a + j) = magicCookie.extractLsb' (24 - 8 * j) 8 := fun j hj => by rw [← h, be32At_byte B a hj]
    exact ⟨hbyte 0 (by decide), hbyte 1 (by decide), hbyte 2 (by decide), hbyte 3 (by decide)⟩
  · rintro ⟨h0, h1, h2, h3⟩
    rw [be32At, h0, h1, h2, h3]
    rfl

/-- Settles O13: the validator compares with the constant, whose bytes are the four. -/
theorem cookieOkIsTheMagicConstant : Obligations.CookieOkIsTheMagicConstant :=
  ⟨cookieOk_iff, fun B => (cookieOk_iff _).trans (be32At_eq_magicCookie_iff B 4)⟩

/-! ### The decoder's checks (R121) -/

theorem headerDecodeF_short (B : Nat → Byte) {n : Nat} (hn : n < 20) : headerDecodeF B n = .error .fmtHdrTrunc := if_pos hn

theorem headerDecodeF_type_error {B : Nat → Byte} {n : Nat} {e : CmdError} (hn : 20 ≤ n) (ht : typeDecodeF (be16At B 0) = .error e) :
    headerDecodeF B n = .error e := by
  rw [headerDecodeF, if_neg (Nat.not_lt.2 hn), ht]

theorem headerDecodeF_cookie_error {B : Nat → Byte} {n : Nat} {c : BitVec 2} {m : BitVec 12} (hn : 20 ≤ n)
    (ht : typeDecodeF (be16At B 0) = .ok (c, m)) (hk : be32At B 4 ≠ magicCookie) : headerDecodeF B n = .error .fmtCookie := by
  rw [headerDecodeF, if_neg (Nat.not_lt.2 hn), ht]
  exact if_neg (mt (cookieOk_iff _).1 hk)

/-- A header that passes the checks decodes to its fields. -/
theorem headerDecodeF_ok {B : Nat → Byte} {n : Nat} {c : BitVec 2} {m : BitVec 12} (hn : 20 ≤ n)
    (ht : typeDecodeF (be16At B 0) = .ok (c, m)) (hk : be32At B 4 = magicCookie) :
    headerDecodeF B n = .ok { type := be16At B 0, cls := c, method := m, msgLen := be16At B 2, cookie := be32At B 4, tid := be96At B 8 } :=
  (headerDecodeF_ok_iff B n _).2 ⟨hn, ht, hk, rfl, rfl, rfl, rfl⟩

/-- Settles O14: one lemma for each check, and the fields of R54 in the record. -/
theorem headerDecodeChecksAndFields : Obligations.HeaderDecodeChecksAndFields := by
  refine ⟨rfl, rfl, fun B n => ⟨headerDecodeF_short B, fun hn e => headerDecodeF_type_error hn, fun hn c m ht => ⟨?_, fun hk => ?_⟩,
    fun C => headerDecodeF_congr B C n⟩⟩
  · exact headerDecodeF_cookie_error hn ht
  · exact ⟨_, headerDecodeF_ok hn ht hk, toNat_be16At B 0, rfl, rfl, toNat_be16At B 2, hk, fun j => be96At_byte B 8⟩

/-! ### A sequence that holds a header (R78, R123) -/

/-- The first twenty bytes are a header with these fields. -/
structure HoldsHeader (B : Nat → Byte) (t len : BitVec 16) (k : BitVec 32) (tid : Tid) : Prop where
  type   : be16At B 0 = t
  msgLen : be16At B 2 = len
  cookie : be32At B 4 = k
  tid    : be96At B 8 = tid

theorem holdsHeader_headerBytes (t len : BitVec 16) (k : BitVec 32) (tid : Tid) :
    HoldsHeader (bytesOf (headerBytes t len k tid)) t len k tid := by
  rw [← List.append_nil (headerBytes t len k tid)]
  exact ⟨be16At_headerBytes_type .., be16At_headerBytes_len .., be32At_headerBytes_cookie .., be96At_headerBytes_tid ..⟩

section
variable {B C : Nat → Byte} {t len : BitVec 16} {k : BitVec 32} {tid : Tid}

/-- Only the first twenty bytes matter. -/
theorem HoldsHeader.congr (h : HoldsHeader B t len k tid) (hBC : ∀ j, j < 20 → C j = B j) : HoldsHeader C t len k tid := by
  have hfield : ∀ a w, a + w ≤ 20 → ∀ j, j < w → C (a + j) = B (a + j) := fun a w hw j hj => hBC (a + j) (by omega)
  exact ⟨(be16At_congr C B 0 (hfield 0 2 (by decide))).trans h.type, (be16At_congr C B 2 (hfield 2 2 (by decide))).trans h.msgLen,
    (be32At_congr C B 4 (hfield 4 4 (by decide))).trans h.cookie, (be96At_congr C B 8 (hfield 8 12 (by decide))).trans h.tid⟩

/-- The fields as R54's sums. -/
theorem HoldsHeader.fieldValues (h : HoldsHeader B t len k tid) :
    fieldValue B 0 2 = t.toNat ∧ fieldValue B 2 2 = len.toNat ∧ fieldValue B 4 4 = k.toNat ∧ fieldValue B 8 12 = tid.toNat := by
  rw [← toNat_be16At, ← toNat_be16At, ← toNat_be32At, ← toNat_be96At, h.type, h.msgLen, h.cookie, h.tid]
  exact ⟨rfl, rfl, rfl, rfl⟩

theorem HoldsHeader.tid_byte (h : HoldsHeader B t len k tid) {j : Nat} (hj : j < 12) : B (8 + j) = tid.extractLsb' (88 - 8 * j) 8 := by
  rw [← h.tid, be96At_byte B 8 hj]

/-- With a type field that decodes and the constant cookie, decoding gives the fields back. -/
theorem HoldsHeader.decode (h : HoldsHeader B t len magicCookie tid) {n : Nat} (hn : 20 ≤ n) {c : BitVec 2} {m : BitVec 12}
    (ht : typeDecodeF t = .ok (c, m)) :
    headerDecodeF B n = .ok { type := t, cls := c, method := m, msgLen := len, cookie := magicCookie, tid := tid } := by
  rw [headerDecodeF_ok hn (by rw [h.type, ht]) h.cookie, h.type, h.msgLen, h.cookie, h.tid]

end

theorem headerEncodeF_of_type_error {c : BitVec 2} {m : BitVec 12} {e : CmdError} (h : typeEncodeF c m = .error e) (len : BitVec 16)
    (k : BitVec 32) (tid : Tid) : headerEncodeF c m len k tid = .error e := by
  rw [headerEncodeF, h]

theorem headerEncodeF_of_type_ok {c : BitVec 2} {m : BitVec 12} {t : BitVec 16} (h : typeEncodeF c m = .ok t) (len : BitVec 16)
    (k : BitVec 32) (tid : Tid) : headerEncodeF c m len k tid = .ok (headerBytes t len k tid) := by
  rw [headerEncodeF, h, headerBytes]

/-- Settles O15: the bytes emitted hold a header with the fields given. -/
theorem headerEncodeSerialisesInOrder : Obligations.HeaderEncodeSerialisesInOrder := by
  refine fun c m len k tid => ⟨fun e he => headerEncodeF_of_type_error he len k tid, fun t ht => ?_⟩
  have hbytes := holdsHeader_headerBytes t len k tid
  obtain ⟨htype, hlen, hcookie, _⟩ := hbytes.fieldValues
  exact ⟨_, headerEncodeF_of_type_ok ht len k tid, length_headerBytes .., htype, hlen, hcookie, fun j => hbytes.tid_byte⟩

/-- Settles O16: the bytes emitted hold a header whose type field decodes to the class and method encoded. -/
theorem headerRoundTrip : Obligations.HeaderRoundTrip := by
  intro c m len tid hm
  have henc := typeEncodeF_known c m hm
  have hdec := (typeEncodeF_ok_iff_typeDecodeF_ok c m _).1 henc
  exact ⟨_, _, headerEncodeF_of_type_ok henc len _ tid, henc, (holdsHeader_headerBytes _ len _ tid).decode le_rfl hdec⟩

/-! ### The commands (R122, R124) -/

theorem exec_hdrDec_ok {s : State} {h : Header} (hd : headerDecodeF (s.byte .ibuf) s.ibufLen.toNat = .ok h) :
    exec .hdrDec s = .next ((s.writeHeader h).afterOk 2) := by
  rw [exec_hdrDec_finish, hd, State.finish]

theorem exec_hdrDec_error {s : State} {e : CmdError} (hd : headerDecodeF (s.byte .ibuf) s.ibufLen.toNat = .error e) :
    exec .hdrDec s = .next (s.afterError e 2) := by
  rw [exec_hdrDec_finish, hd, State.finish]

/-- Settles O23: HDR_DEC ends as HeaderDecodeF of the datagram does. -/
theorem hdrDecCommand : Obligations.HdrDecCommand := by
  refine ⟨rfl, fun s h => exec_hdrDec_ok, fun s hn => exec_hdrDec_error (headerDecodeF_short _ hn), fun s hn => ⟨fun hres => ?_,
    fun hres => ?_⟩⟩
  · exact exec_hdrDec_error (headerDecodeF_type_error hn (typeDecodeF_reserved (by rwa [reserved_be16At])))
  · have hzero : (be16At (s.byte .ibuf) 0).extractLsb' 14 2 = 0 := (reserved_be16At (s.byte .ibuf) 0).trans hres
    have hok := fun hm => (typeDecodeF_ok_iff (be16At (s.byte .ibuf) 0) _ _).2 ⟨hzero, rfl, rfl, hm⟩
    have hcookie : be32At (s.byte .ibuf) 4 = magicCookie ↔ fieldValue (s.byte .ibuf) 4 4 = 0x2112A442 := by
      rw [← toNat_be32At]
      exact BitVec.toNat_inj.symm
    refine ⟨fun hm => ?_, fun hm hk => ?_, fun hm hk => ?_⟩
    · exact exec_hdrDec_error (headerDecodeF_type_error hn ((typeDecodeF_error_iff _ _).2 (.inr ⟨hzero, hm, rfl⟩)))
    · exact exec_hdrDec_error (headerDecodeF_cookie_error hn (hok hm) (mt hcookie.1 hk))
    · exact ⟨_, headerDecodeF_ok hn (hok hm) (hcookie.2 hk)⟩

theorem exec_hdrEnc_ok {s : State} (hm : knownMethod s.method = true) :
    exec .hdrEnc s = .next ((s.writeOutput (headerBytes (typeField s.cls s.method) s.msgLen s.cookie s.tid)).afterOk 3) := by
  rw [exec_hdrEnc_finish, headerEncodeF_known _ _ _ _ _ hm, State.finish]

theorem byte_afterOk (s : State) (o : BitVec 3) (sp : Space) (i : Nat) : (s.afterOk o).byte sp i = s.byte sp i :=
  byte_writeReg s .status _ sp i

/-- A header put in OBUF is held there. -/
theorem holdsHeader_writeOutput (s : State) (o : BitVec 3) (t len : BitVec 16) (k : BitVec 32) (tid : Tid) :
    HoldsHeader (((s.writeOutput (headerBytes t len k tid)).afterOk o).byte .obuf) t len k tid :=
  (holdsHeader_headerBytes t len k tid).congr fun j hj => (byte_afterOk _ o .obuf j).trans (byte_writeOutput_of_lt s hj)

/-- Settles O24: OBUF holds the header encoded, and an encoder's output writes nothing else. -/
theorem hdrEncCommand : Obligations.HdrEncCommand := by
  refine ⟨rfl, fun s hm => ?_, fun s hm => ?_⟩
  · refine ⟨_, _, typeEncodeF_known s.cls s.method hm, exec_hdrEnc_ok hm, ?_⟩
    have hres := CommandResult.hdrEnc hm
    obtain ⟨htype, hlen, hcookie, htid⟩ := (holdsHeader_writeOutput s 3 (typeField s.cls s.method) s.msgLen s.cookie s.tid).fieldValues
    have hframe := fun sp i hi => (byte_afterOk _ 3 sp i).trans
      (byte_writeOutput_of_le s (headerBytes (typeField s.cls s.method) s.msgLen s.cookie s.tid) sp i hi)
    refine ⟨writeReg_status_self _ _, ?_, htype, hlen, hcookie, htid, hres.sameRegsBut.writeReg .status _,
      fun i hi => hframe .obuf i fun _ => hi, fun i => hframe .ibuf i nofun, fun i => hframe .val i nofun, ?_⟩
    · simp [State.afterOk, State.writeOutput]
    · simpa [SameOutside, State.afterOk] using hres.sameOutside
  · rw [exec_hdrEnc_finish, headerEncodeF_unknown _ _ _ _ _ hm]
    rfl

end Sys2Proof.Machine
end

section
/-! PROOFS. The family 42_message_codec.md: the bytes of a message record, the sequences that hold them, the two functions and
the two commands. -/

namespace Sys2Proof.Machine

/-! ### The bytes of a message record (R142) -/

/-- A record's header and, iff present = 1, its ATTR_TYPE and ATTR_LEN fields and its value. -/
def Message.bytes (r : Message) : List Byte :=
  headerBytes r.header.type r.header.msgLen r.header.cookie r.header.tid ++
    if r.present = 1 then bytes16 r.atype ++ bytes16 r.alen ++ r.value else []

theorem Message.bytes_of_absent {r : Message} (hp : r.present = 0) :
    r.bytes = headerBytes r.header.type r.header.msgLen r.header.cookie r.header.tid := by
  rw [Message.bytes, hp]
  exact List.append_nil _

theorem Message.bytes_of_present {r : Message} (hp : r.present = 1) :
    r.bytes = headerBytes r.header.type r.header.msgLen r.header.cookie r.header.tid ++ bytes16 r.atype ++ bytes16 r.alen ++ r.value := by
  rw [Message.bytes, if_pos hp, ← List.append_assoc, ← List.append_assoc]

theorem Message.length_bytes_of_absent {r : Message} (hp : r.present = 0) : r.bytes.length = 20 := by
  rw [Message.bytes_of_absent hp, length_headerBytes]

theorem Message.length_bytes_of_present {r : Message} (hp : r.present = 1) : r.bytes.length = 24 + r.value.length := by
  rw [Message.bytes_of_present hp, List.length_append]
  rfl

theorem Message.twenty_le_length_bytes (r : Message) : 20 ≤ r.bytes.length := by
  rw [Message.bytes, List.length_append, length_headerBytes]
  exact Nat.le_add_right 20 _

/-- A record whose value fits VAL has bytes that fit OBUF (R8, R53). -/
theorem Message.length_bytes_le {r : Message} {cfg : Config} (hcfg : cfg.ok) (hv : r.present = 1 → r.value.length ≤ cfg.rxBufSize - 24) :
    r.bytes.length ≤ cfg.rxBufSize := by
  obtain ⟨hmin, _⟩ := hcfg
  rcases bit_eq_zero_or_one r.present with hp | hp
  · rw [Message.length_bytes_of_absent hp]
    omega
  · have := hv hp
    rw [Message.length_bytes_of_present hp]
    omega

/-- Encoding a record's parts gives its bytes. -/
theorem messageEncodeF_of_type_ok {r : Message} (ht : typeEncodeF r.header.cls r.header.method = .ok r.header.type) :
    messageEncodeF r.header.cls r.header.method r.header.msgLen r.header.cookie r.header.tid r.present r.atype r.alen r.value =
      .ok r.bytes := by
  rw [messageEncodeF, headerEncodeF_of_type_ok ht]
  rcases bit_eq_zero_or_one r.present with hp | hp
  · rw [Message.bytes_of_absent hp]
    exact if_pos hp
  · rw [Message.bytes_of_present hp]
    exact if_neg (by rw [hp]; decide)

theorem messageEncodeF_of_header_error {c : BitVec 2} {m : BitVec 12} {len : BitVec 16} {k : BitVec 32} {tid : Tid} {e : CmdError}
    (h : headerEncodeF c m len k tid = .error e) (present : BitVec 1) (atype alen : BitVec 16) (value : List Byte) :
    messageEncodeF c m len k tid present atype alen value = .error e := by
  rw [messageEncodeF, h]

/-- A header is encoded only with a type field that is. -/
theorem headerEncodeF_eq_ok {c : BitVec 2} {m : BitVec 12} {len : BitVec 16} {k : BitVec 32} {tid : Tid} {hdr : List Byte}
    (h : headerEncodeF c m len k tid = .ok hdr) : ∃ t, typeEncodeF c m = .ok t ∧ hdr = headerBytes t len k tid := by
  cases ht : typeEncodeF c m with
  | ok t =>
    rw [headerEncodeF_of_type_ok ht] at h
    cases h
    exact ⟨t, rfl, rfl⟩
  | error e =>
    rw [headerEncodeF_of_type_error ht] at h
    cases h

/-! ### A sequence that holds a message (R140, R142) -/

theorem getElem?_eq_bytesOf {bs : List Byte} {k : Nat} (hk : k < bs.length) : bs[k]? = some (bytesOf bs k) := by
  simp [bytesOf, List.getD_eq_getElem?_getD, hk]

/-- A sequence that has a list's bytes from an index on has that list as its slice. -/
theorem slice_eq_of_bytesOf {B : Nat → Byte} {a : Nat} {bs : List Byte} (h : ∀ k, k < bs.length → B (a + k) = bytesOf bs k) :
    slice B a bs.length = bs := by
  apply List.ext_getElem?
  intro k
  rw [getElem?_slice]
  by_cases hk : k < bs.length
  · rw [if_pos hk, h k hk, getElem?_eq_bytesOf hk]
  · rw [if_neg hk, List.getElem?_eq_none (Nat.le_of_not_lt hk)]

/-- The bytes from 20 on are these ATTR_TYPE and ATTR_LEN fields and this value. -/
structure HoldsAttr (B : Nat → Byte) (atype alen : BitVec 16) (value : List Byte) : Prop where
  type  : be16At B 20 = atype
  len   : be16At B 22 = alen
  value : ∀ k, k < value.length → B (24 + k) = bytesOf value k

theorem HoldsAttr.congr {B C : Nat → Byte} {atype alen : BitVec 16} {value : List Byte} (h : HoldsAttr B atype alen value)
    (hBC : ∀ k, k < 24 + value.length → C k = B k) : HoldsAttr C atype alen value where
  type := (be16At_congr C B 20 fun k hk => hBC (20 + k) (by omega)).trans h.type
  len := (be16At_congr C B 22 fun k hk => hBC (22 + k) (by omega)).trans h.len
  value := fun k hk => (hBC (24 + k) (by omega)).trans (h.value k hk)

theorem HoldsAttr.fieldValues {B : Nat → Byte} {atype alen : BitVec 16} {value : List Byte} (h : HoldsAttr B atype alen value) :
    fieldValue B 20 2 = atype.toNat ∧ fieldValue B 22 2 = alen.toNat := by
  rw [← toNat_be16At, ← toNat_be16At, h.type, h.len]
  exact ⟨rfl, rfl⟩

/-- The encoder's bytes behind the header are these fields and this value. -/
theorem holdsAttr_headerBytes_append (t len : BitVec 16) (k : BitVec 32) (tid : Tid) (atype alen : BitVec 16) (value : List Byte) :
    HoldsAttr (bytesOf (headerBytes t len k tid ++ bytes16 atype ++ bytes16 alen ++ value)) atype alen value where
  type := be16_split atype
  len := be16_split alen
  value := fun j _ => bytesOf_append_right (headerBytes t len k tid ++ bytes16 atype ++ bytes16 alen) value j

/-- The sequence begins with the record's header and, if present = 1, goes on with its fields and value. -/
structure HoldsMessage (B : Nat → Byte) (r : Message) : Prop where
  header : HoldsHeader B r.header.type r.header.msgLen r.header.cookie r.header.tid
  attr   : r.present = 1 → HoldsAttr B r.atype r.alen r.value

/-- A sequence with the record's bytes holds the record. -/
theorem holdsMessage_of_bytes {B : Nat → Byte} {r : Message} (h : ∀ k, k < r.bytes.length → B k = bytesOf r.bytes k) :
    HoldsMessage B r where
  header := by
    refine (holdsHeader_headerBytes _ _ _ _).congr fun j hj => ?_
    rw [h j (Nat.lt_of_lt_of_le hj r.twenty_le_length_bytes), Message.bytes, bytesOf_append_left _ _ _ hj]
  attr := fun hp => by
    rw [Message.length_bytes_of_present hp, Message.bytes_of_present hp] at h
    exact (holdsAttr_headerBytes_append _ _ _ _ _ _ _).congr h

/-! ### The functions (R140, R142) -/

theorem messageDecodeF_of_header_error {B : Nat → Byte} {n : Nat} {e : CmdError} (h : headerDecodeF B n = .error e) :
    messageDecodeF B n = .error e := by
  rw [messageDecodeF, h]

section
variable {B : Nat → Byte} {n : Nat} {h : Header}

theorem messageDecodeF_absent (hd : headerDecodeF B n = .ok h) (hn : n = 20) :
    messageDecodeF B n = .ok { header := h, present := 0, atype := 0, alen := 0, value := [] } := by
  rw [messageDecodeF, hd]
  exact if_pos hn

theorem messageDecodeF_truncated (hd : headerDecodeF B n = .ok h) (hlo : 20 < n) (hhi : n < 24) :
    messageDecodeF B n = .error .fmtAttrTrunc := by
  rw [messageDecodeF, hd]
  exact (if_neg (Nat.ne_of_gt hlo)).trans (if_pos hhi)

theorem messageDecodeF_present (hd : headerDecodeF B n = .ok h) (hn : 24 ≤ n) :
    messageDecodeF B n =
      .ok { header := h, present := 1, atype := be16At B 20, alen := be16At B 22, value := slice B 24 (n - 24) } := by
  rw [messageDecodeF, hd]
  exact (if_neg (Nat.ne_of_gt (Nat.lt_of_lt_of_le (by decide) hn))).trans (if_neg (Nat.not_lt.2 hn))

end

/-- Settles O17: one lemma for each class of lengths, and the fields and the slice read by index. -/
theorem messageDecodeByDatagramLength : Obligations.MessageDecodeByDatagramLength := by
  refine ⟨rfl, fun B n => ⟨fun e => messageDecodeF_of_header_error, fun h hd =>
    ⟨messageDecodeF_absent hd, messageDecodeF_truncated hd, fun hn => ?_⟩⟩⟩
  exact ⟨_, messageDecodeF_present hd hn, rfl, rfl, toNat_be16At B 20, toNat_be16At B 22, length_slice .., fun k hk => by
    rw [getElem?_slice, if_pos hk]⟩

/-- Settles O18: the bytes emitted are those of the record with the given parts. -/
theorem messageEncodeAppendsTheAttribute : Obligations.MessageEncodeAppendsTheAttribute := by
  refine fun c m len k tid present atype alen value =>
    ⟨fun e he => messageEncodeF_of_header_error he present atype alen value, fun hdr hhdr => ?_⟩
  obtain ⟨t, ht, rfl⟩ := headerEncodeF_eq_ok hhdr
  let r : Message :=
    { header := { type := t, cls := c, method := m, msgLen := len, cookie := k, tid := tid }, present, atype, alen, value }
  have hholds : HoldsMessage (bytesOf r.bytes) r := holdsMessage_of_bytes fun _ _ => rfl
  refine ⟨r.bytes, messageEncodeF_of_type_ok (r := r) ht, fun j hj => List.getElem?_append_left hj,
    Message.length_bytes_of_absent (r := r), fun hp => ?_⟩
  obtain ⟨htype, halen⟩ := (hholds.attr hp).fieldValues
  refine ⟨Message.length_bytes_of_present hp, htype, halen, fun j hj => ?_⟩
  rw [getElem?_eq_bytesOf (by rw [Message.length_bytes_of_present hp]; exact Nat.add_lt_add_left hj 24), (hholds.attr hp).value j hj,
    getElem?_eq_bytesOf hj]

/-! ### Decoding what was encoded (R145) -/

/-- A well-formed record: its type field is the one of its class and method, its cookie the constant, and with present = 0 its other
fields are zero and its value empty. -/
structure Message.WellFormed (r : Message) : Prop where
  type   : typeEncodeF r.header.cls r.header.method = .ok r.header.type
  cookie : r.header.cookie = magicCookie
  absent : r.present = 0 → r.atype = 0 ∧ r.alen = 0 ∧ r.value = []

theorem Message.WellFormed.eq_of_absent {r : Message} (hr : r.WellFormed) (hp : r.present = 0) :
    r = { header := r.header, present := 0, atype := 0, alen := 0, value := [] } := by
  obtain ⟨hatype, halen, hvalue⟩ := hr.absent hp
  rw [← hp, ← hvalue, Message.mk.injEq]
  exact ⟨rfl, rfl, hatype, halen, rfl⟩

theorem HoldsMessage.headerDecodeF_eq {B : Nat → Byte} {r : Message} (h : HoldsMessage B r) (hr : r.WellFormed) {n : Nat} (hn : 20 ≤ n) :
    headerDecodeF B n = .ok r.header := by
  have hheader := h.header
  rw [hr.cookie] at hheader
  rw [hheader.decode hn ((typeEncodeF_ok_iff_typeDecodeF_ok _ _ _).1 hr.type), ← hr.cookie]

/-- A sequence that holds a well-formed record decodes to it at the record's own length. -/
theorem HoldsMessage.decode {B : Nat → Byte} {r : Message} (h : HoldsMessage B r) (hr : r.WellFormed) :
    messageDecodeF B r.bytes.length = .ok r := by
  have hhdr := h.headerDecodeF_eq hr r.twenty_le_length_bytes
  rcases bit_eq_zero_or_one r.present with hp | hp
  · rw [messageDecodeF_absent hhdr (Message.length_bytes_of_absent hp), ← hr.eq_of_absent hp]
  · obtain ⟨htype, hlen, hvalue⟩ := h.attr hp
    have hn := Message.length_bytes_of_present hp
    rw [messageDecodeF_present hhdr (hn ▸ Nat.le_add_right 24 _), hn, Nat.add_sub_cancel_left, htype, hlen, slice_eq_of_bytesOf hvalue,
      ← hp]

/-- Settles O19: the bytes of a well-formed record hold it. -/
theorem messageRoundTrip : Obligations.MessageRoundTrip := by
  intro cfg r t hcfg ht htype hcookie habsent hvalue
  have hr : r.WellFormed := ⟨by rw [ht, htype], hcookie, habsent⟩
  exact ⟨r.bytes, messageEncodeF_of_type_ok hr.type, Message.length_bytes_le hcfg hvalue,
    (holdsMessage_of_bytes fun _ _ => rfl).decode hr⟩

/-! ### MSG_DEC (R141) -/

theorem exec_msgDec_ok {s : State} {r : Message} (hd : messageDecodeF (s.byte .ibuf) s.ibufLen.toNat = .ok r) :
    exec .msgDec s = .next (((s.writeHeader r.header).writeAttr r).afterOk 4) := by
  rw [exec_msgDec_finish, hd, State.finish]

theorem exec_msgDec_error {s : State} {e : CmdError} (hd : messageDecodeF (s.byte .ibuf) s.ibufLen.toNat = .error e) :
    exec .msgDec s = .next (s.afterError e 4) := by
  rw [exec_msgDec_finish, hd, State.finish]

/-- Settles O25: MSG_DEC writes the decoded record, and nothing beyond its value's bytes. -/
theorem msgDecCommandStoresTheMessage : Obligations.MsgDecCommandStoresTheMessage := by
  refine ⟨rfl, fun s r hd => ⟨_, exec_msgDec_ok hd, ?_⟩⟩
  have hres := CommandResult.msgDec hd
  have hframe := fun sp i hi => (byte_afterOk _ 4 sp i).trans
    ((byte_writeAttr_of_le (s.writeHeader r.header) r sp i hi).trans (byte_writeHeader s r.header sp i))
  refine ⟨rfl, rfl, rfl, rfl, rfl, rfl, rfl, rfl, rfl, rfl, toNat_valCnt_writeAttr (s.writeHeader r.header) hd, fun k hk => ?_,
    fun i hi => hframe .val i fun _ => hi, hres.sameRegsBut.writeReg .status _, fun i => hframe .ibuf i nofun,
    fun i => hframe .obuf i nofun, ?_⟩
  · rw [byte_afterOk, byte_writeAttr_of_lt _ hk, getElem?_eq_bytesOf hk]
  · simpa [SameOutside, State.afterOk] using hres.sameOutside

/-! The header decoder's checks after the length, by what the datagram holds. -/

section
variable {B : Nat → Byte} {n : Nat}

theorem headerDecodeF_reserved (hn : 20 ≤ n) (hres : (B 0).extractLsb 7 6 ≠ 0) : headerDecodeF B n = .error .fmtTypeReserved :=
  headerDecodeF_type_error hn (typeDecodeF_reserved (by rwa [reserved_be16At]))

theorem headerDecodeF_unknownMethod (hn : 20 ≤ n) (hres : (B 0).extractLsb 7 6 = 0)
    (hm : knownMethod (typeMethod (be16At B 0)) = false) : headerDecodeF B n = .error .fmtMethodUnknown :=
  headerDecodeF_type_error hn ((typeDecodeF_error_iff _ _).2 (.inr ⟨(reserved_be16At B 0).trans hres, hm, rfl⟩))

theorem typeDecodeF_be16At_ok (hres : (B 0).extractLsb 7 6 = 0) (hm : knownMethod (typeMethod (be16At B 0)) = true) :
    typeDecodeF (be16At B 0) = .ok (typeClass (be16At B 0), typeMethod (be16At B 0)) :=
  (typeDecodeF_ok_iff _ _ _).2 ⟨(reserved_be16At B 0).trans hres, rfl, rfl, hm⟩

theorem be32At_eq_magicCookie_iff_fieldValue (B : Nat → Byte) (a : Nat) :
    be32At B a = magicCookie ↔ fieldValue B a 4 = 0x2112A442 := by
  rw [← toNat_be32At]
  exact BitVec.toNat_inj.symm

end

/-- Settles O26: MSG_DEC ends as MessageDecodeF of the datagram does. -/
theorem msgDecErrorsInPriorityOrder : Obligations.MsgDecErrorsInPriorityOrder := by
  refine ⟨fun s hn => exec_msgDec_error (messageDecodeF_of_header_error (headerDecodeF_short _ hn)), fun s hn =>
    ⟨fun hres => exec_msgDec_error (messageDecodeF_of_header_error (headerDecodeF_reserved hn hres)), fun hres =>
      ⟨fun hm => exec_msgDec_error (messageDecodeF_of_header_error (headerDecodeF_unknownMethod hn hres hm)), fun hm => ?_⟩⟩⟩
  have htype := typeDecodeF_be16At_ok hres hm
  have hcookie := be32At_eq_magicCookie_iff_fieldValue (s.byte .ibuf) 4
  have hhdr := fun hk => headerDecodeF_ok hn htype (hcookie.2 hk)
  refine ⟨fun hk => ?_, fun hk hlo hhi => ?_, fun hk hlen => ?_⟩
  · exact exec_msgDec_error (messageDecodeF_of_header_error (headerDecodeF_cookie_error hn htype (mt hcookie.1 hk)))
  · exact exec_msgDec_error (messageDecodeF_truncated (hhdr hk) hlo hhi)
  · rcases hlen with hlen | hlen
    · exact ⟨_, messageDecodeF_absent (hhdr hk) hlen⟩
    · exact ⟨_, messageDecodeF_present (hhdr hk) hlen⟩

/-! ### MSG_ENC (R143) -/

/-- Settles O28: the two errors of what MSG_ENC computes. -/
theorem msgEncErrorsInPriorityOrder : Obligations.MsgEncErrorsInPriorityOrder := by
  refine ⟨fun s hm => ?_, fun s hm hp hv => ?_⟩
  · rw [exec_msgEnc_finish, State.encodedMessage, if_neg (by simp [hm])]
    rfl
  · rw [exec_msgEnc_finish, State.encodedMessage, if_pos hm, if_pos ⟨hp, hv⟩]
    rfl

/-- The record in the message registers and VAL, with the type field of CLASS and METHOD. -/
def State.message (s : State) : Message where
  header :=
    { type := typeField s.cls s.method, cls := s.cls, method := s.method, msgLen := s.msgLen, cookie := s.cookie, tid := s.tid }
  present := s.attrPresent
  atype := s.attrType
  alen := s.attrLen
  value := s.attrValue

theorem attrValue_of_present {s : State} (hp : s.attrPresent = 1) : s.attrValue = s.memRead .val 0 s.valCnt.toNat := if_pos hp

theorem attrValue_of_absent {s : State} (hp : s.attrPresent = 0) : s.attrValue = [] := if_neg (by rw [hp]; decide)

theorem length_attrValue {s : State} (hp : s.attrPresent = 1) : s.attrValue.length = s.valCnt.toNat := by
  rw [attrValue_of_present hp, State.memRead, length_slice]

theorem bytesOf_attrValue {s : State} (hp : s.attrPresent = 1) {k : Nat} (hk : k < s.valCnt.toNat) :
    bytesOf s.attrValue k = s.byte .val k := by
  rw [attrValue_of_present hp, State.memRead, bytesOf_slice _ _ _ _ hk, Nat.zero_add]

/-- With VAL_CNT = 0 wherever ATTR_PRESENT = 0, the value is VAL[0..VAL_CNT) either way. -/
theorem attrValue_eq_memRead {s : State} (h : s.attrPresent = 0 → s.valCnt = 0) : s.attrValue = s.memRead .val 0 s.valCnt.toNat := by
  rcases bit_eq_zero_or_one s.attrPresent with hp | hp
  · rw [attrValue_of_absent hp, h hp]
    rfl
  · exact attrValue_of_present hp

/-- MSG_ENC emits the bytes of that record. -/
theorem messageBytes_eq_bytes (s : State) : s.messageBytes = s.message.bytes := by
  rcases bit_eq_zero_or_one s.attrPresent with hp | hp
  · rw [Message.bytes_of_absent (r := s.message) hp, State.messageBytes, if_neg (by rw [hp]; decide), List.append_nil]
    rfl
  · rw [State.messageBytes, if_pos hp, ← attrValue_of_present hp]
    exact (congrArg _ (if_pos hp)).symm

section
variable {s : State}

theorem exec_msgEnc_ok (hm : knownMethod s.method = true) (hv : s.attrPresent = 1 → s.valCnt.toNat ≤ s.cfg.rxBufSize - 24) :
    exec .msgEnc s = .next ((s.writeOutput s.message.bytes).afterOk 5) := by
  rw [exec_msgEnc_finish, State.encodedMessage, if_pos hm, if_neg fun h => Nat.not_lt.2 (hv h.1) h.2, State.finish, messageBytes_eq_bytes]

/-- The message fits OBUF when its value fits VAL (R53). -/
theorem length_message_bytes_le (hcfg : s.cfg.ok) (hv : s.attrPresent = 1 → s.valCnt.toNat ≤ s.cfg.rxBufSize - 24) :
    s.message.bytes.length ≤ s.cfg.rxBufSize :=
  Message.length_bytes_le hcfg fun hp => (length_attrValue hp).trans_le (hv hp)

/-- OBUF_LEN after MSG_ENC. -/
theorem toNat_obufLen_of_msgEnc (hcfg : s.cfg.ok) (hv : s.attrPresent = 1 → s.valCnt.toNat ≤ s.cfg.rxBufSize - 24) :
    ((s.writeOutput s.message.bytes).afterOk 5).obufLen.toNat = s.message.bytes.length :=
  toNat_obufLen_writeOutput s (Nat.lt_of_le_of_lt ((length_message_bytes_le hcfg hv).trans hcfg.2) (by decide))

end

/-- OBUF after an encoder's output, within the output. -/
theorem byte_afterOk_writeOutput (s : State) (o : BitVec 3) {bs : List Byte} {k : Nat} (hk : k < bs.length) :
    ((s.writeOutput bs).afterOk o).byte .obuf k = bytesOf bs k :=
  (byte_afterOk _ o .obuf k).trans (byte_writeOutput_of_lt s hk)

/-- Settles O27: OBUF holds the record of the registers, and an encoder's output writes nothing else. -/
theorem msgEncCommandEmitsTheMessage : Obligations.MsgEncCommandEmitsTheMessage := by
  refine ⟨rfl, fun s hcfg hm hv => ⟨_, _, typeEncodeF_known s.cls s.method hm, exec_msgEnc_ok hm hv, writeReg_status_self _ _, ?_⟩⟩
  have hlen := toNat_obufLen_of_msgEnc hcfg hv
  have hholds : HoldsMessage _ s.message := holdsMessage_of_bytes fun _ => byte_afterOk_writeOutput s 5
  obtain ⟨htype, hmsgLen, hcookie, htid⟩ := hholds.header.fieldValues
  have hres := CommandResult.msgEnc hm fun h => Nat.not_lt.2 (hv h.1) h.2
  have hlength := length_messageBytes s
  rw [messageBytes_eq_bytes] at hres hlength
  have hframe := fun sp i hi => (byte_afterOk _ 5 sp i).trans (byte_writeOutput_of_le s s.message.bytes sp i hi)
  refine ⟨hlen.trans hlength, htype, hmsgLen, hcookie, htid, fun hp => ?_, hres.sameRegsBut.writeReg .status _,
    fun i hi => hframe .obuf i fun _ => hlen ▸ hi, fun i => hframe .ibuf i nofun, fun i => hframe .val i nofun, ?_⟩
  · obtain ⟨hatype, halen⟩ := (hholds.attr hp).fieldValues
    exact ⟨hatype, halen, fun k hk =>
      ((hholds.attr hp).value k (hk.trans_eq (length_attrValue hp).symm)).trans (bytesOf_attrValue hp hk)⟩
  · simpa [SameOutside, State.afterOk] using hres.sameOutside

/-- The 32 bytes of a Binding Success Response: header, ATTR_TYPE, ATTR_LEN and the XOR-MAPPED-ADDRESS value (R80, R82). -/
def bindingResponse (tid : Tid) (ip : BitVec 32) (port : BitVec 16) : List Byte :=
  headerBytes 0x0101 12 0x2112A442 tid ++ (bytes16 0x0020 ++ bytes16 8 ++ xmaBuildF ip port)

/-- MSG_ENC emits those bytes from the response's fields. -/
theorem message_bytes_eq_bindingResponse {s : State} {ip : BitVec 32} {port : BitVec 16} (hcls : s.cls = 0b10) (hm : s.method = 0x001)
    (hlen : s.msgLen = 12) (hcookie : s.cookie = 0x2112A442) (hp : s.attrPresent = 1) (htype : s.attrType = 0x0020)
    (halen : s.attrLen = 8) (hcnt : s.valCnt = 8) (hval : s.memRead .val 0 8 = xmaBuildF ip port) :
    s.message.bytes = bindingResponse s.tid ip port := by
  have hfield : typeField 0b10 0x001 = 0x0101 := by decide
  rw [← messageBytes_eq_bytes, State.messageBytes, if_pos hp, hcls, hm, hfield, hlen, hcookie, htype, halen, hcnt, bindingResponse, ← hval]
  rfl

/-- Settles O32: OBUF holds the bytes of the response, whose fields are the ones printed. -/
theorem msgEncEmitsTheBindingResponse : Obligations.MsgEncEmitsTheBindingResponse := by
  intro s ip port hcfg hcls hm hlen hcookie hp htype halen hcnt hval
  have hv : s.attrPresent = 1 → s.valCnt.toNat ≤ s.cfg.rxBufSize - 24 := fun _ => by
    have hmin := hcfg.1
    rw [hcnt]
    exact Nat.le_sub_of_add_le hmin
  have hbs := message_bytes_eq_bindingResponse hcls hm hlen hcookie hp htype halen hcnt hval
  have hbyte : ∀ a n, a + n ≤ 32 → ∀ k, k < n → ((s.writeOutput s.message.bytes).afterOk 5).byte .obuf (a + k) =
      bytesOf (bindingResponse s.tid ip port) (a + k) := fun a n han k hk => by
    have hk : a + k < 32 := by omega
    rw [hbs, byte_afterOk_writeOutput s 5 hk]
  refine ⟨_, exec_msgEnc_ok (by rw [hm]; decide) hv, ?_, writeReg_status_self _ _, ?_, fun k hk => ?_, ?_, ?_, ?_⟩
  · rw [hbs]
    rfl
  · exact slice_congr _ _ 8 0 (hbyte 0 8 (by decide))
  · exact ((holdsHeader_headerBytes _ _ _ _).congr fun j hj => by
      rw [← Nat.zero_add j, hbyte 0 20 (by decide) j hj, bindingResponse, bytesOf_append_left _ _ _ (by simpa using hj)]).tid_byte hk
  · exact slice_congr _ _ 6 20 (hbyte 20 6 (by decide))
  · rw [← toNat_be16At, be16At_congr _ _ 26 (hbyte 26 2 (by decide))]
    exact congrArg BitVec.toNat (be16_split (port ^^^ magicHi16))
  · rw [← toNat_be32At, be32At_congr _ _ 28 (hbyte 28 4 (by decide))]
    exact congrArg BitVec.toNat (be32_split (ip ^^^ magicCookie))

/-! ### MSG_ENC, a copy of OBUF to IBUF, MSG_DEC (R145) -/

/-- Settles O33: OBUF holds a well-formed record, so its copy decodes to that record, which is the one of the registers. -/
theorem encodeCopyDecodeKeepsTheMessage : Obligations.EncodeCopyDecodeKeepsTheMessage := by
  intro s hcfg hm hcookie habsent hv
  have hwf : s.message.WellFormed := ⟨typeEncodeF_known _ _ hm, hcookie, fun hp => by
    obtain ⟨htype, halen, _⟩ := habsent hp
    exact ⟨htype, halen, attrValue_of_absent hp⟩⟩
  have hlen := toNat_obufLen_of_msgEnc hcfg hv
  refine ⟨_, exec_msgEnc_ok hm hv, hlen ▸ length_message_bytes_le hcfg hv, fun u hu hcopy => ?_⟩
  rw [hlen] at hcopy
  have hholds : HoldsMessage (u.byte .ibuf) s.message :=
    holdsMessage_of_bytes fun k hk => (hcopy k hk).trans (byte_afterOk_writeOutput s 5 hk)
  have hd : messageDecodeF (u.byte .ibuf) u.ibufLen.toNat = .ok s.message := by
    rw [hu, hlen, hholds.decode hwf]
  obtain ⟨v, hx, hst, htype, hcls, hmethod, hmsgLen, hvcookie, htid, hpresent, hatype, halen, hcnt, hval, _⟩ :=
    msgDecCommandStoresTheMessage.2 u s.message hd
  have hvalue : s.message.value = slice (s.byte .val) 0 s.valCnt.toNat := attrValue_eq_memRead fun hp => (habsent hp).2.2
  rw [hvalue, length_slice] at hcnt hval
  refine ⟨v, hx, hst, htype ▸ hwf.type, hcls, hmethod, hmsgLen, hvcookie, htid, hpresent, hatype, halen, BitVec.eq_of_toNat_eq hcnt,
    fun k hk => ?_⟩
  have hbyte := hval k hk
  rw [getElem?_slice, if_pos hk, Nat.zero_add] at hbyte
  exact (Option.some_inj.1 hbyte).symm

end Sys2Proof.Machine
end

section
/-! PROOFS. The family 43_xor_mapped_address.md: the fields of the builder's eight bytes, and XMA_OUT by its three parts. -/

namespace Sys2Proof.Machine

/-! ### The eight bytes (R160) -/

section
variable (ip : BitVec 32) (port : BitVec 16)

theorem be16At_xmaBuildF_port : be16At (bytesOf (xmaBuildF ip port)) 2 = port ^^^ magicHi16 := be16_split _

theorem be32At_xmaBuildF_address : be32At (bytesOf (xmaBuildF ip port)) 4 = ip ^^^ magicCookie := be32_split _

end

/-- Settles O20: the first two bytes are literal, the other two fields are read back as they were written. -/
theorem xmaBuildFunctionGivesEightBytes : Obligations.XmaBuildFunctionGivesEightBytes := by
  refine fun ip port => ⟨rfl, rfl, rfl, ?_, ?_⟩
  · rw [← toNat_be16At, be16At_xmaBuildF_port, magicHi16]
  · rw [← toNat_be32At, be32At_xmaBuildF_address, magicCookie]

/-! ### The command (R161) -/

/-- The 64 bits XMA_BUILD writes: the reserved byte and the family, then the port and the address, each XORed with its constant. -/
def xmaWord (ip : BitVec 32) (port : BitVec 16) : BitVec 64 := 0x0001#16 ++ (port ^^^ magicHi16) ++ (ip ^^^ magicCookie)

theorem exec_xmaBuild_word (s : State) :
    exec .xmaBuild s = .next { s with xmaOut := xmaWord s.peerIp s.peerPort, status := 0x0601 } := by
  rw [exec_xmaBuild, be64Of_xmaBuildF]
  rfl

/-- Settles O29: XMA_BUILD writes that word and STATUS. -/
theorem xmaBuildCommand : Obligations.XmaBuildCommand := ⟨rfl, exec_xmaBuild_word⟩

/-! ### The XOR tree, bit by bit (R162) -/

/-- The one-bits of MAGIC_COOKIE[31:16]. -/
theorem getLsbD_magicHi16 : ∀ i, i < 16 → magicHi16.getLsbD i = decide (i ∈ [1, 4, 8, 13]) := by decide

/-- The one-bits of MAGIC_COOKIE. -/
theorem getLsbD_magicCookie : ∀ i, i < 32 → magicCookie.getLsbD i = decide (i ∈ [1, 6, 10, 13, 15, 17, 20, 24, 29]) := by decide

section
variable (ip : BitVec 32) (port : BitVec 16)

/-- XMA_OUT[47:32] is the XORed port. -/
theorem extractLsb'_xmaWord_port : (xmaWord ip port).extractLsb' 32 16 = port ^^^ magicHi16 := by
  rw [xmaWord, BitVec.extractLsb'_append_eq_of_le (by decide), BitVec.extractLsb'_append_eq_right]

/-- XMA_OUT[31:0] is the XORed address. -/
theorem extractLsb'_xmaWord_address : (xmaWord ip port).extractLsb' 0 32 = ip ^^^ magicCookie :=
  BitVec.extractLsb'_append_eq_right

theorem getLsbD_xmaWord_port {i : Nat} (hi : i < 16) :
    (xmaWord ip port).getLsbD (32 + i) = (port.getLsbD i ^^ magicHi16.getLsbD i) := by
  rw [← BitVec.getLsbD_xor, ← extractLsb'_xmaWord_port ip port, BitVec.getLsbD_extractLsb', decide_eq_true hi, Bool.true_and]

theorem getLsbD_xmaWord_address {i : Nat} (hi : i < 32) :
    (xmaWord ip port).getLsbD i = (ip.getLsbD i ^^ magicCookie.getLsbD i) := by
  rw [← BitVec.getLsbD_xor, ← extractLsb'_xmaWord_address ip port, BitVec.getLsbD_extractLsb', decide_eq_true hi, Bool.true_and,
    Nat.zero_add]

end

/-- Settles O30: a bit of either field is its input bit XORed with the constant's, which is one exactly at the listed places. -/
theorem xorTreeInvertsTheCookieBits : Obligations.XorTreeInvertsTheCookieBits := by
  refine fun s => ⟨_, exec_xmaBuild_word s, fun i hi => ?_, fun i hi => ?_⟩
  · rw [getLsbD_xmaWord_port _ _ hi, getLsbD_magicHi16 i hi]
  · rw [getLsbD_xmaWord_address _ _ hi, getLsbD_magicCookie i hi]

/-! ### XMA_BUILD twice (R163) -/

/-- Settles O31: the second run XORs each field with its constant again, and (x ^ K) ^ K = x. -/
theorem xmaBuildTwiceGivesTheAddressBack : Obligations.XmaBuildTwiceGivesTheAddressBack := by
  refine fun s => ⟨_, exec_xmaBuild_word s, _, exec_xmaBuild_word _, ?_, ?_⟩
  · rw [extractLsb'_xmaWord_port, extractLsb'_xmaWord_port, BitVec.xor_assoc, BitVec.xor_self, BitVec.xor_zero]
  · rw [extractLsb'_xmaWord_address, extractLsb'_xmaWord_address, BitVec.xor_assoc, BitVec.xor_self, BitVec.xor_zero]

end Sys2Proof.Machine
end

section
/-! PROOFS. The family 45_host_interface.md: which host statements are refused, what the host's register and byte accesses, an arrival and a SEND
do, and the handler's phases. -/

namespace Sys2Proof.Machine

/-! ### What a command leaves of the host -/

/-- A command touches nothing outside the block. -/
theorem exec_sameOutside {i : Instr} {s t : State} (h : exec i s = .next t) : SameOutside s t := by
  rcases exec_next_cases h with ⟨u, hu, rfl⟩ | ⟨e, _, rfl⟩
  · simpa [SameOutside, State.afterOk] using hu.sameOutside
  · simp [SameOutside, State.afterError]

/-- No command is refused (R180, R181): every issue answers a next state. -/
theorem issueCommand_answers (w : Byte) (s : State) : ∃ t, issueCommand w s = .next t := by
  rcases exec_cases (decodeByte w) (s.latchCmd w) with ⟨u, _, hx⟩ | ⟨e, _, hx⟩ <;> exact ⟨_, hx⟩

theorem issueCommand_host {w : Byte} {s t : State} (h : issueCommand w s = .next t) : t.host = s.host := by
  obtain ⟨_, _, hhost⟩ := exec_sameOutside h
  rw [hhost, State.latchCmd, writeReg_host]

/-! ### When a statement is refused (R171, R172, R173, R180) -/

theorem issueCommand_not_refused (w : Byte) (s : State) (r : Refusal) : issueCommand w s ≠ .refused r := by
  obtain ⟨t, hx⟩ := issueCommand_answers w s
  simp [hx]

theorem runIdle_not_refused (s : State) (r : Refusal) : runIdle s ≠ .refused r := by
  unfold runIdle
  cases s.host.inbox <;> simp

/-- No two registers share an index (R42). -/
theorem index_inj {q r : Reg} : q.index = r.index ↔ q = r :=
  ⟨fun h => by simpa [ofIndex_index] using congrArg Reg.ofIndex h, congrArg Reg.index⟩

/-- A host write that names a register, with a value of its width: CMD's is an issue, any other writes the register. -/
theorem runWr_of_index {r : Reg} {v : Nat} (hv : v < 2 ^ r.width) (s : State) :
    runWr r.index v s = if r = .cmd then issueCommand (BitVec.ofNat 8 v) s else .next (s.hostWrite r v) := by
  rw [runWr, ofIndex_index]
  exact if_pos hv

/-- A host write is refused for a reserved index or for a value wider than the register it names, and for nothing else. -/
theorem runWr_refused (idx : Byte) (v : Nat) (s : State) (r : Refusal) :
    runWr idx v s = .refused r ↔ (0x11 ≤ idx.toNat ∧ r = .reservedRegister idx) ∨
      ∃ q : Reg, 2 ^ q.width ≤ v ∧ r = .valueTooWide q.index v ∧ idx = q.index := by
  cases hq : Reg.ofIndex idx with
  | none =>
    have hidx := (ofIndex_eq_none_iff idx).1 hq
    have hno : ∀ q : Reg, idx ≠ q.index := fun q h => by simp [h, ofIndex_index] at hq
    simp [runWr, hq, hidx, hno, eq_comm]
  | some q =>
    have hidx : ¬ 0x11 ≤ idx.toNat := fun h => by simp [(ofIndex_eq_none_iff idx).2 h] at hq
    obtain rfl := index_of_ofIndex idx q hq
    by_cases hv : v < 2 ^ q.width
    · rw [runWr_of_index hv]
      split <;> simp [issueCommand_not_refused, hidx, index_inj, hv]
    · simp [runWr, hq, hv, hidx, index_inj, Nat.le_of_not_lt hv, eq_comm]

theorem runRd_refused (idx : Byte) (s : State) (r : Refusal) :
    runRd idx s = .refused r ↔ 0x11 ≤ idx.toNat ∧ r = .reservedRegister idx := by
  rw [← ofIndex_eq_none_iff, runRd]
  cases Reg.ofIndex idx <;> simp [eq_comm]

theorem runWrb_refused (sp : Space) (i : Nat) (b : Byte) (s : State) (r : Refusal) :
    runWrb sp i b s = .refused r ↔ s.sizeOf sp ≤ i ∧ r = .bufferIndexOutOfRange sp i := by
  unfold runWrb
  split
  · rename_i hi
    have hle := Nat.not_le_of_lt hi
    cases sp <;> simp only [hle, false_and, reduceCtorEq]
  · rename_i hi
    simp [Nat.le_of_not_lt hi, eq_comm]

theorem runRdb_refused (sp : Space) (i : Nat) (s : State) (r : Refusal) :
    runRdb sp i s = .refused r ↔ s.sizeOf sp ≤ i ∧ r = .bufferIndexOutOfRange sp i := by
  unfold runRdb
  split
  · rename_i hi
    simp [Nat.not_le_of_lt hi]
  · rename_i hi
    simp [Nat.le_of_not_lt hi, eq_comm]

/-- A branch's operand is refused exactly when it names a reserved register. -/
theorem value_eq_error_iff (o : HostOperand) (s : State) (r : Refusal) :
    o.value s = .error r ↔ ∃ idx : Byte, 0x11 ≤ idx.toNat ∧ r = .reservedRegister idx ∧ o = .reg idx := by
  constructor
  · intro h
    obtain ⟨idx, ho, hidx, hr⟩ := value_error o s r h
    exact ⟨idx, hidx, hr, ho⟩
  · rintro ⟨idx, hidx, rfl, rfl⟩
    rw [HostOperand.value, (ofIndex_eq_none_iff idx).2 hidx]

/-- A branch is refused for a reserved register, or when it is taken to a label the program lacks. -/
theorem runBranch_refused_reason (o : HostOperand) (taken : Nat → Bool) (l : Label) (s : State) (r : Refusal) :
    runBranch o taken l s = .refused r ↔
      (∃ idx : Byte, 0x11 ≤ idx.toNat ∧ r = .reservedRegister idx ∧ o = .reg idx) ∨
        (afterLabel l s.host.prog = none ∧ r = .unknownLabel l ∧ ∃ x, o.value s = .ok x ∧ taken x = true) := by
  rw [runBranch_refused, value_eq_error_iff]
  simp only [runJmp_refused]
  refine or_congr_right ⟨?_, ?_⟩
  · rintro ⟨x, hx, ht, hl, hr⟩
    exact ⟨hl, hr, x, hx, ht⟩
  · rintro ⟨hl, hr, x, hx, ht⟩
    exact ⟨x, hx, ht, hl, hr⟩

/-- The host's statement violates a duty, for the reason it gives: a reserved register index, a byte beyond its space, a value wider than its
register, or a jump to a label that the program lacks (R180; log 7). -/
def HostViolation (s : State) (st : Stmt) (r : Refusal) : Prop :=
  (∃ idx : Byte, 0x11 ≤ idx.toNat ∧ r = .reservedRegister idx ∧
      ((∃ v, st = .wr idx v) ∨ st = .rd idx ∨ (∃ v l, st = .beq (.reg idx) v l) ∨ ∃ v l, st = .bne (.reg idx) v l)) ∨
    (∃ sp i, s.sizeOf sp ≤ i ∧ r = .bufferIndexOutOfRange sp i ∧ ((∃ b, st = .wrb sp i b) ∨ st = .rdb sp i)) ∨
    (∃ q v, 2 ^ Reg.width q ≤ v ∧ r = .valueTooWide q.index v ∧ st = .wr q.index v) ∨
    ∃ l, afterLabel l s.host.prog = none ∧ r = .unknownLabel l ∧
      (st = .jmp l ∨ (∃ o v, st = .beq o v l ∧ o.value s = .ok v) ∨ ∃ o v x, st = .bne o v l ∧ o.value s = .ok x ∧ x ≠ v)

/-- The statements left play no part in what violates a duty. -/
theorem hostViolation_withRest (s : State) (p : List Stmt) (st : Stmt) (r : Refusal) :
    HostViolation (s.withRest p) st r ↔ HostViolation s st r := by simp [HostViolation]

/-- A statement is refused exactly when it violates a duty: the refusals of the operations, statement by statement. -/
theorem runStmt_refused (st : Stmt) (s : State) (r : Refusal) : runStmt st s = .refused r ↔ HostViolation s st r := by
  cases st with
  | issue w => simp [runStmt, HostViolation, issueCommand_not_refused]
  | wr idx v => simp [runStmt, HostViolation, runWr_refused]
  | rd idx => simp [runStmt, HostViolation, runRd_refused]
  | wrb sp i b => simp [runStmt, HostViolation, runWrb_refused]
  | rdb sp i => simp [runStmt, HostViolation, runRdb_refused]
  | beq o v l | bne o v l => simp [runStmt, HostViolation, runBranch_refused_reason]
  | jmp l => simp [runStmt, HostViolation, runJmp_refused]
  | rx | send | label | stop | wrv | cpyxma | peer | reset =>
    simp [runStmt, HostViolation, runRx, runSend, runExpansion]

/-- Settles O51: the idle step is never refused, and a statement exactly when it violates a duty. -/
theorem refusalsAreHostViolations : Obligations.RefusalsAreHostViolations := by
  intro s r
  cases hrest : s.host.rest with
  | nil => simp [step_idle s hrest, runIdle_not_refused]
  | cons st rest =>
    rw [step_stmt s st rest hrest, runStmt_refused, hostViolation_withRest]
    constructor
    · exact fun h => ⟨st, rest, rfl, h⟩
    · rintro ⟨_, _, ⟨rfl, rfl⟩, h⟩
      exact h

/-- A step whose statement violates a duty is refused for that reason. -/
theorem step_refused {s : State} {st : Stmt} {rest : List Stmt} {r : Refusal} (hrest : s.host.rest = st :: rest)
    (h : HostViolation s st r) : step s = .refused r := (refusalsAreHostViolations s r).2 ⟨st, rest, hrest, h⟩

/-! ### Register reads (R172) -/

theorem runRd_index (r : Reg) (s : State) : runRd r.index s = .next (s.returned (s.readReg r).toNat) := by
  rw [runRd, ofIndex_index]

/-- Settles O42: the read returns the register's value; a reserved index violates a duty. -/
theorem hostRegisterRead : Obligations.HostRegisterRead := by
  refine ⟨?_, fun s idx rest hrest hidx => ?_⟩
  · rintro s _ rest r hrest rfl
    rw [step_stmt s _ rest hrest, runStmt, runRd_index, withRest_readReg]
    rfl
  · exact step_refused hrest (.inl ⟨idx, hidx, rfl, .inr (.inl rfl)⟩)

/-! ### Register writes (R171) -/

/-- A read-only register keeps its value (R42). -/
theorem hostWrite_readOnly {r : Reg} (hr : r ∈ [Reg.status, .obufLen, .xmaOut]) (s : State) (v : Nat) : s.hostWrite r v = s := by
  simp only [List.mem_cons, List.not_mem_nil, or_false] at hr
  rcases hr with rfl | rfl | rfl <;> rfl

/-- IBUF_LEN takes min(v, RX_BUF_SIZE) (R36). -/
theorem toNat_hostWrite_ibufLen {v : Nat} (hv : v < 2 ^ Reg.width .ibufLen) (s : State) :
    (s.hostWrite .ibufLen v).ibufLen.toNat = min v s.cfg.rxBufSize := by
  show (BitVec.ofNat 16 (min v s.cfg.rxBufSize)).toNat = _
  rw [BitVec.toNat_ofNat, Nat.mod_eq_of_lt ((Nat.min_le_left _ _).trans_lt hv)]

/-- Any other register takes the value (R171). -/
theorem toNat_readReg_hostWrite {r : Reg} {v : Nat} (hr : r ∉ [Reg.status, .obufLen, .xmaOut, .ibufLen]) (hv : v < 2 ^ r.width)
    (s : State) : ((s.hostWrite r v).readReg r).toNat = v := by
  rcases hostWrite_cases s r v with ⟨hro, _⟩ | ⟨hlen, _⟩ | ⟨_, h⟩
  · exact (hr (List.mem_append_left [Reg.ibufLen] hro)).elim
  · exact (hr (by simp [hlen])).elim
  · rw [h, readReg_writeReg_self, BitVec.toNat_ofNat, Nat.mod_eq_of_lt hv]

theorem hostWrite_outside (s : State) (r : Reg) (v : Nat) : SameOutside s (s.hostWrite r v) := by
  rcases hostWrite_cases s r v with ⟨_, h⟩ | ⟨_, h⟩ | ⟨_, h⟩ <;> simp [h, SameOutside]

/-- Settles O41: CMD's write is an issue, any other's is that of the host column; a reserved index violates a duty. -/
theorem hostRegisterWrite : Obligations.HostRegisterWrite := by
  refine ⟨?_, fun s idx v rest hrest hidx => ?_⟩
  · rintro s _ v rest r hrest rfl hv
    rw [step_stmt s _ rest hrest, runStmt, runWr_of_index hv]
    refine ⟨?_, fun hr => ?_⟩
    · rintro rfl
      rfl
    · rw [if_neg hr]
      refine ⟨_, rfl, fun q hq => ?_, fun sp i => ?_, hostWrite_outside _ r v, fun h => ?_, ?_,
        fun h => toNat_readReg_hostWrite h hv _⟩
      · rw [readReg_hostWrite_ne _ _ _ _ (by simpa using hq), withRest_readReg]
      · rw [byte_hostWrite, byte_withRest]
      · rw [hostWrite_readOnly h, withRest_readReg]
      · rintro rfl
        exact toNat_hostWrite_ibufLen hv _
  · exact step_refused hrest (.inl ⟨idx, hidx, rfl, .inl ⟨v, rfl⟩⟩)

/-! ### Byte reads and writes (R173) -/

/-- One byte written is the byte read at its place, and no other byte changes. -/
theorem byte_memWrite_one (s : State) (sp : Space) (i : Nat) (b : Byte) :
    (s.memWrite sp i [b]).byte sp i = b ∧
      ∀ sp' k, (sp', k) ≠ (sp, i) → (s.memWrite sp i [b]).byte sp' k = s.byte sp' k := by
  refine ⟨by simp [byte_memWrite, bytesOf], fun sp' k hne => ?_⟩
  rw [byte_memWrite, if_neg]
  rintro ⟨rfl, hik, hki⟩
  exact hne (by rw [Nat.le_antisymm (Nat.le_of_lt_succ hki) hik])

/-- A host byte write inside its space writes the byte, but nothing in OBUF. -/
theorem runWrb_of_lt {sp : Space} {i : Nat} {s : State} (hi : i < s.sizeOf sp) (b : Byte) :
    runWrb sp i b s = .next (if sp = .obuf then s else s.memWrite sp i [b]) := by
  cases sp <;> exact if_pos hi

/-- Settles O43: inside the space the byte is written, but in OBUF, or read; beyond it the access violates a duty. -/
theorem hostBufferAccess : Obligations.HostBufferAccess := by
  refine ⟨fun s sp i b rest hrest hi => ?_, fun s sp i rest hrest hi => ?_, fun s sp i b rest hrest hi => ?_,
    fun s sp i rest hrest hi => ?_⟩
  · rw [step_stmt s _ rest hrest, runStmt, runWrb_of_lt (by simpa using hi)]
    by_cases hsp : sp = .obuf
    · exact ⟨_, rfl, fun q _ => by simp [hsp], by simp [hsp, SameOutside], fun _ sp' k => by simp [hsp], fun h => absurd hsp h⟩
    · obtain ⟨hself, hother⟩ := byte_memWrite_one (s.withRest rest) sp i b
      rw [if_neg hsp]
      refine ⟨_, rfl, fun q _ => by simp, by simp [SameOutside], fun h => absurd h hsp, fun _ => ⟨hself, fun sp' k hne => ?_⟩⟩
      rw [hother sp' k hne, byte_withRest]
  · rw [step_stmt s _ rest hrest, runStmt, runRdb, if_pos (by simpa using hi), byte_withRest]
    rfl
  · exact step_refused hrest (.inr (.inl ⟨sp, i, hi, rfl, .inl ⟨b, rfl⟩⟩))
  · exact step_refused hrest (.inr (.inl ⟨sp, i, hi, rfl, .inr rfl⟩))

/-! ### Arrival and SEND (R174, R175) -/

/-- The state after an arrival: the bytes received, the sender's registers, the host's record (R174). -/
def State.afterArrival (s : State) (bs : List Byte) (sender : Option Peer) : State :=
  ((s.receive bs).writeSender sender).withSender sender

theorem step_rx {s : State} {bs : List Byte} {sender : Option Peer} {rest : List Stmt} (hrest : s.host.rest = .rx bs sender :: rest) :
    step s = .next ((s.withRest rest).afterArrival bs sender) := step_stmt s _ rest hrest

section
variable (s : State) (bs : List Byte) (sender : Option Peer)

theorem afterArrival_outside : (s.afterArrival bs sender).cfg = s.cfg ∧ (s.afterArrival bs sender).epoch = s.epoch ∧
    (s.afterArrival bs sender).host = { s.host with sender := sender } := by
  obtain ⟨hcfg, hepoch, hhost⟩ := receive_outside s bs
  obtain ⟨hcfg', hepoch', hhost'⟩ := writeSender_outside (s.receive bs) sender
  refine ⟨hcfg'.trans hcfg, hepoch'.trans hepoch, ?_⟩
  rw [State.afterArrival, withSender_host, hhost', hhost]

/-- IBUF below the length kept holds the datagram, and no other byte changes. -/
theorem byte_afterArrival (sp : Space) (i : Nat) : (s.afterArrival bs sender).byte sp i =
    if sp = .ibuf ∧ i < min bs.length s.cfg.rxBufSize then bytesOf bs i else s.byte sp i := by
  rw [State.afterArrival, byte_withSender, byte_writeSender, byte_receive, Nat.min_comm]

theorem readReg_afterArrival_ne {q : Reg} (hq : q ∉ [Reg.ibufLen, .peerIp, .peerPort]) :
    (s.afterArrival bs sender).readReg q = s.readReg q := by
  obtain ⟨hlen, hpeer⟩ := not_or.1 (mt List.mem_cons.2 hq)
  rw [State.afterArrival, withSender_readReg, readReg_writeSender_ne _ _ _ hpeer, readReg_receive_ne _ _ _ hlen]

/-- IBUF_LEN holds the number of bytes kept, for a size of R7's range. -/
theorem toNat_ibufLen_afterArrival (hcfg : s.cfg.ok) :
    (s.afterArrival bs sender).ibufLen.toNat = min bs.length s.cfg.rxBufSize := by
  have hmax := hcfg.2
  have hlen : (s.afterArrival bs sender).ibufLen = (s.receive bs).ibufLen := readReg_writeSender_ne _ sender .ibufLen (by decide)
  rw [hlen, receive_ibufLen, BitVec.toNat_ofNat, Nat.mod_eq_of_lt (by omega)]

theorem afterArrival_some_peer (p : Peer) :
    (s.afterArrival bs (some p)).peerIp = p.ip ∧ (s.afterArrival bs (some p)).peerPort = p.port := ⟨rfl, rfl⟩

theorem afterArrival_none_peer :
    (s.afterArrival bs none).peerIp = s.peerIp ∧ (s.afterArrival bs none).peerPort = s.peerPort :=
  ⟨readReg_receive_ne s bs .peerIp (by decide), readReg_receive_ne s bs .peerPort (by decide)⟩

end

/-- Settles O44: the state after the arrival, register by register and byte by byte. -/
theorem datagramArrival : Obligations.DatagramArrival := by
  intro s bs sender rest hcfg hrest
  have hbyte := byte_afterArrival (s.withRest rest) bs sender
  obtain ⟨hcfg', hepoch, hhost⟩ := afterArrival_outside (s.withRest rest) bs sender
  refine ⟨_, step_rx hrest, toNat_ibufLen_afterArrival _ bs sender hcfg, fun k hk => ?_, ?_, ?_, fun k hk => ?_, fun k => ?_,
    fun k => ?_, fun q hq => ?_, hcfg', hepoch, hhost⟩
  · rw [hbyte, if_pos ⟨rfl, hk⟩, getElem?_eq_bytesOf (hk.trans_le (Nat.min_le_left _ _))]
  · rintro p rfl
    obtain ⟨hip, hport⟩ := afterArrival_some_peer (s.withRest rest) bs p
    exact ⟨by rw [hip, toNat_ip], hport⟩
  · rintro rfl
    exact afterArrival_none_peer (s.withRest rest) bs
  · rw [hbyte, if_neg fun h => Nat.not_lt_of_le hk h.2, byte_withRest]
  · simp [hbyte]
  · simp [hbyte]
  · rw [readReg_afterArrival_ne _ bs sender hq, withRest_readReg]

/-- Settles O45: the packet's bytes are those of OBUF below OBUF_LEN, and SEND leaves the block. -/
theorem transmissionSendsTheOutput : Obligations.TransmissionSendsTheOutput := by
  intro s rest hrest
  have hstep := step_stmt s .send rest hrest
  obtain ⟨hregs, hbytes, _⟩ := readsAndControlFlowLeaveTheBlock s _ .send rest hrest rfl hstep
  refine ⟨_, s.memRead .obuf 0 s.obufLen.toNat, hstep, rfl, length_slice _ _ _, fun k hk => ?_, rfl, hregs, hbytes⟩
  rw [State.memRead, getElem?_slice, if_pos hk, Nat.zero_add]

/-! ### The handler's phases (R177, R178) -/

/-- After the label `drop` the handler has END left. -/
theorem afterLabel_drop_handlerProgram (a : Arrival) : afterLabel dropLabel (handlerProgram a) = some [.stop] := rfl

/-- A command issue always goes on with the rest of the host's list. -/
theorem step_issue_answers {s : State} {w : Byte} {rest : List Stmt} (hrest : s.host.rest = .issue w :: rest) :
    ∃ t, step s = .next t ∧ t.host.rest = rest := by
  obtain ⟨t, ht⟩ := issueCommand_answers w (s.withRest rest)
  exact ⟨t, (step_stmt s _ rest hrest).trans ht, by rw [issueCommand_host ht]; rfl⟩

/-- Settles O57: the statements left after each step, from which the phase is read. -/
theorem handlerPhasesFollowTheDatagram : Obligations.HandlerPhasesFollowTheDatagram := by
  refine ⟨fun s a hrest => ?_, fun s a o v x rest hprog hrest hx hne => ?_, fun s hrest => ?_, fun s hrest => ?_⟩
  · have hrx := step_rx (rest := (handlerProgram a).tail) hrest
    obtain ⟨_, _, hhost⟩ := afterArrival_outside (s.withRest (handlerProgram a).tail) a.bytes (some a.sender)
    have hrest' := congrArg HostSide.rest hhost
    obtain ⟨u, hu, hrest''⟩ := step_issue_answers hrest'
    exact ⟨phase_of_rest s _ hrest, _, u, hrx, phase_of_rest _ _ hrest', hrest', hu, phase_of_rest _ _ hrest''⟩
  · have ht := (step_branch hrest (fun _ => rfl) hx).1 (by simpa using hne) (hprog ▸ afterLabel_drop_handlerProgram a)
    exact ⟨phase_of_rest s _ hrest, _, ht, rfl, rfl⟩
  · have hsend := step_stmt s .send [.label 0, .stop] hrest
    exact ⟨phase_of_rest s _ hrest, _, _, hsend, rfl, rfl, step_stmt _ (.label 0) [.stop] rfl, rfl, rfl⟩
  · exact ⟨phase_of_rest s _ hrest, _, step_stmt s _ _ hrest, rfl, rfl⟩

end Sys2Proof.Machine
end

section
/-! PROOFS. The family 60_exceptions.md: what a command has written when it reports an error or success, the errors of its row, and the idle
step. -/

namespace Sys2Proof.Machine

/-! ### How a command reports its ending (R204, R205) -/

theorem statusErr_eq_one_iff (v : BitVec 16) : statusErr v = 1 ↔ v.getLsbD 1 = true := by
  simp [statusErr, BitVec.eq_of_getLsbD_eq_iff]

theorem statusOk_getLsbD_err (o : BitVec 3) : (statusOk o).getLsbD 1 = false := (statusWord_bits 0 0 o).2.1

/-- The number a success's STATUS word stands for (R25, R205). -/
theorem toNat_statusOk (o : BitVec 3) : (statusOk o).toNat = 1 + 256 * o.toNat := by
  revert o; decide

/-- A command that reports an error has raised one of its row, and nothing else has happened. -/
theorem exec_failure {i : Instr} {s t : State} (h : exec i s = .next t) (herr : t.status.getLsbD 1 = true) :
    ∃ e ∈ i.errors, t = s.afterError e i.op := by
  rcases exec_next_cases h with ⟨u, _, rfl⟩ | he
  · cases (statusOk_getLsbD_err i.op).symm.trans herr
  · exact he

/-- Settles O35: the state after an error differs in STATUS only. -/
theorem errorsWriteStatusOnly : Obligations.ErrorsWriteStatusOnly := by
  intro i s t hx herr
  obtain ⟨e, _, rfl⟩ := exec_failure hx herr
  exact ⟨e, toNat_statusError e i.op, onlyStatus_setStatus s (statusError e i.op)⟩

/-- Settles O36: after the results, a success writes its STATUS word. -/
theorem successReportsDoneAndLastOp : Obligations.SuccessReportsDoneAndLastOp := by
  intro i s t hx hok
  obtain ⟨u, _, rfl⟩ := exec_success hx hok
  exact toNat_statusOk i.op

/-! ### The error matrix (R202) -/

/-- A block of the smallest RX_BUF_SIZE, so with VAL_MAX = 8, right after reset: METHOD is no known method. -/
def State.smallReset : State := { State.reset with cfg := { rxBufSize := 32 } }

/-- That block with a datagram of n bytes in IBUF: the given ones, and 0 after them. -/
def State.smallHolding (first : List Byte) (n : Nat) : State :=
  State.smallReset.receive (first ++ List.replicate (n - first.length) 0)

/-- For each error a state in which every command with the error in its row raises it; no row has FMT_CLASS_UNKNOWN. -/
def CmdError.raisingState : CmdError → State
  | .fmtHdrTrunc | .encMethodUnknown | .cmdIllegal | .fmtClassUnknown => State.smallReset
  | .fmtTypeReserved => { State.smallHolding [0x80, 0x01, 0x00, 0x00, 0x21, 0x12, 0xA4, 0x42] 20 with type := 0x8001 }
  | .fmtMethodUnknown => { State.smallHolding [0x00, 0x02, 0x00, 0x00, 0x21, 0x12, 0xA4, 0x42] 20 with type := 0x0002 }
  | .fmtCookie => State.smallHolding [0x00, 0x01, 0x00, 0x00, 0x42, 0xA4, 0x12, 0x21] 20
  | .fmtAttrTrunc => State.smallHolding [0x00, 0x01, 0x00, 0x00, 0x21, 0x12, 0xA4, 0x42] 21
  | .encValueOverflow => { State.smallReset with method := 0x001, attrPresent := 1, valCnt := 9 }

/-- Row by row of the matrix, the command evaluated in the state of each of the row's errors. -/
theorem exec_raisingState {i : Instr} {e : CmdError} (he : e ∈ i.errors) :
    exec i e.raisingState = .next (e.raisingState.afterError e i.op) := by
  cases i with
  | typeEnc | typeDec | hdrDec | hdrEnc | msgDec | msgEnc | xmaBuild => fin_cases he <;> rfl
  | cmdIllegal | cmdIllegalRsv =>
    obtain rfl := List.mem_singleton.1 he
    exact exec_illegal he _

/-- Settles O37: an error reported is of the row, and its ECODE is its code; each error of the row is raised in its state. -/
theorem errorMatrix : Obligations.ErrorMatrix := by
  refine ⟨fun i s t hx herr => ?_, fun i e he => ⟨_, _, exec_raisingState he, rfl⟩⟩
  obtain ⟨e, he, rfl⟩ := exec_failure hx ((statusErr_eq_one_iff _).1 herr)
  exact ⟨e, he, statusEcode_statusError e i.op⟩

/-! ### The idle step (R213, R177) -/

theorem runIdle_of_inbox_nil {s : State} (h : s.host.inbox = []) : runIdle s = .next s := by
  rw [runIdle, h]

/-- A waiting datagram changes the host only: the datagram is taken and its handler put in place. -/
theorem runIdle_of_inbox_cons {s : State} {a : Arrival} {later : List Arrival} (h : s.host.inbox = a :: later) :
    runIdle s = .next (s.withHost { s.host with prog := handlerProgram a, rest := handlerProgram a, inbox := later }) := by
  rw [runIdle, h]
  rfl

/-- Settles O49: with no statement left a step is the idle step, which changes the host at most. -/
theorem idleStepHoldsTheBlock : Obligations.IdleStepHoldsTheBlock := by
  refine ⟨fun s hrest hinbox => (step_idle s hrest).trans (runIdle_of_inbox_nil hinbox), fun s a later hrest hinbox => ?_⟩
  exact ⟨_, handlerProgram a, (step_idle s hrest).trans (runIdle_of_inbox_cons hinbox), rfl, rfl, rfl,
    fun r _ => withHost_readReg s _ r, fun sp i => withHost_byte s _ sp i, rfl, rfl⟩

end Sys2Proof.Machine
end

section
/-! PROOFS. The family 70_reset_and_hazards.md: what the reset event leaves, the commands issued straight after reset, and the invariant
there. -/

namespace Sys2Proof.Machine

/-! ### The reset event (R230) -/

theorem step_resetEvent {s : State} {rest : List Stmt} (hrest : s.host.rest = .reset :: rest) :
    step s = .next (s.withRest rest).applyReset := step_stmt s .reset rest hrest

/-- No byte is written after a reset, so each reads as the free value of the new reset count. -/
theorem byte_applyReset (s : State) (sp : Space) (i : Nat) : s.applyReset.byte sp i = Config.freeByte (s.epoch + 1) sp i := by
  rw [State.byte, applyReset_buf]
  rfl

/-- Settles O53: register by register and byte by byte, the state the event's step leaves. -/
theorem resetEventRestoresTheResetValues : Obligations.ResetEventRestoresTheResetValues := fun s rest hrest =>
  ⟨_, step_resetEvent hrest, applyReset_readReg _, rfl, rfl, byte_applyReset (s.withRest rest)⟩

/-! ### The commands straight after reset (R232) -/

theorem knownMethod_reset : knownMethod State.reset.method = false := by decide

theorem knownMethod_typeMethod_reset : knownMethod (typeMethod State.reset.type) = false := by decide

theorem ibufLen_reset_lt : State.reset.ibufLen.toNat < 20 := by decide

/-- Settles O54: METHOD is unknown, TYPE holds an unknown method and the datagram is too short, so each command's own statement gives its
error; XMA_BUILD writes its constants. -/
theorem commandsStraightAfterReset : Obligations.CommandsStraightAfterReset := by
  obtain ⟨_, _, typeEncUnknown⟩ := typeEncCommand
  obtain ⟨_, _, hdrEncUnknown⟩ := hdrEncCommand
  obtain ⟨msgEncUnknown, _⟩ := msgEncErrorsInPriorityOrder
  obtain ⟨_, _, _, typeDecUnknown, _⟩ := typeDecCommand
  obtain ⟨_, _, hdrDecShort, _⟩ := hdrDecCommand
  obtain ⟨msgDecShort, _⟩ := msgDecErrorsInPriorityOrder
  exact ⟨typeEncUnknown _ knownMethod_reset, hdrEncUnknown _ knownMethod_reset, msgEncUnknown _ knownMethod_reset,
    typeDecUnknown _ (by decide) knownMethod_typeMethod_reset, hdrDecShort _ ibufLen_reset_lt, msgDecShort _ ibufLen_reset_lt,
    exec_xmaBuild_word _⟩

/-! ### The invariant at reset (R230, R25, R36, R40) -/

/-- Whatever the free value, the size it chooses is in R7's range. -/
theorem chosen_ok : Config.chosen.ok := by
  simp only [Config.ok, Config.chosen]
  omega

/-- Settles O55: the size is in range, every buffer is empty, and every register is 0 or its constant. -/
theorem invariantHoldsAtReset : Obligations.InvariantHoldsAtReset where
  cfg := chosen_ok
  bufs := fun sp => by cases sp <;> exact ⟨rfl, rfl⟩
  ibufLen := Nat.zero_le _
  obufLen := Nat.zero_le _
  status := .inl rfl
  lastOp := by decide
  xmaOut := .inl rfl

end Sys2Proof.Machine
end
